-- ==== Sys2Proof/Word.lean ====
section
/-! DEFINITION. The word types of the TCPSEG codec block: bytes of a buffer, the 16-bit and 32-bit values of the wire
formats, the command word, and the integer a host request carries. -/

namespace Sys2Proof

/-- One byte of a byte sequence (spec/00_scope.md R5, spec/10_state.md R22). -/
abbrev Byte := BitVec 8

/-- A 16-bit value: a port, the offset/flags field, a checksum, the operand IMM of a command word. -/
abbrev Half := BitVec 16

/-- A 32-bit value: a sequence number, an address, a command word (spec/30_encoding.md R60). -/
abbrev Word := BitVec 32

/-- The integer a host request carries, read as signed: -2^63 to 2^63 - 1 (spec/00_scope.md R3 "WDATA range",
spec/20_memory.md R42). -/
abbrev WData := BitVec 64

end Sys2Proof
end

