-- ==== Sys2Proof/Syntax.lean ====
section
/-! DEFINITION. The commands of the block: one constructor per row of spec/opcode_table.json (spec/30_encoding.md R61).
The operand of a command is the 16-bit field IMM of its word, used as it stands (R62). -/

namespace Sys2Proof

/-- The 14 commands of spec/30_encoding.md R61. -/
inductive Instr where
  /-- BS.NEW (spec/41_bitset.md R90). -/
  | bsNew
  /-- BS.SET mask (spec/41_bitset.md R91). -/
  | bsSet (mask : Half)
  /-- BS.CLR mask (spec/41_bitset.md R92). -/
  | bsClr (mask : Half)
  /-- BS.TST mask (spec/41_bitset.md R93). -/
  | bsTst (mask : Half)
  /-- FLG.FROMINT n (spec/42_flags.md R101). -/
  | flgFromint (n : Half)
  /-- FLG.PACK b; bits 15:9 of b must be 0 (spec/42_flags.md R102). -/
  | flgPack (b : Half)
  /-- OPT.CLR (spec/43_options.md R111). -/
  | optClr
  /-- OPT.PUSH (spec/43_options.md R112). -/
  | optPush
  /-- OPT.GET i (spec/43_options.md R113). -/
  | optGet (i : Half)
  /-- OPT.ENC (spec/43_options.md R118). -/
  | optEnc
  /-- OPT.DEC (spec/43_options.md R123). -/
  | optDec
  /-- CSUM (spec/44_checksum.md R132). -/
  | csum
  /-- SEG.ENC (spec/45_segment.md R145). -/
  | segEnc
  /-- SEG.DEC (spec/45_segment.md R150). -/
  | segDec
deriving DecidableEq, Repr

end Sys2Proof
end

