-- ==== Sys2Proof/WellFormed.lean ====
section
/-! DEFINITION. Which commands have a command word. The one check of spec/30_encoding.md R63 that the fields of `Instr`
do not already enforce: IMM[15:9] of FLG.PACK is 0. -/

namespace Sys2Proof

/-- The command has a legal command word (spec/30_encoding.md R61, R63): FLG.PACK's operand is nine bits wide. -/
def Instr.wf : Instr → Bool
  | .bsNew => true
  | .bsSet _ => true
  | .bsClr _ => true
  | .bsTst _ => true
  | .flgFromint _ => true
  | .flgPack b => b.extractLsb' 9 7 == 0#7
  | .optClr => true
  | .optPush => true
  | .optGet _ => true
  | .optEnc => true
  | .optDec => true
  | .csum => true
  | .segEnc => true
  | .segDec => true

end Sys2Proof
end

