-- ==== Sys2Proof/Decode.lean ====
section
/-! DEFINITION. Decoding a command word, total on all 2^32 words and rejecting by name, in the order of tests of
spec/30_encoding.md R63; then the encoder, written from the opcode map of R61. -/

namespace Sys2Proof

/-- Why a word is no command (spec/30_encoding.md R63). -/
inductive DecodeError where
  /-- OPC is not in the opcode map (IllegalRequest 0x71). -/
  | unknownOpcode
  /-- RSV, bits 23:16, is not 0 (IllegalRequest 0x72). -/
  | reservedBits
  /-- IMM is not 0 and the command has no operand (IllegalRequest 0x72). -/
  | operandBits
  /-- FLG.PACK with a bit of IMM[15:9] set (IllegalRequest 0x72). -/
  | packBits
deriving DecidableEq, Repr

/-- OPC, bits 31:24 of a command word (spec/30_encoding.md R60). -/
def opcOf (w : Word) : Byte := w.extractLsb' 24 8

/-- RSV, bits 23:16 of a command word (R60). -/
def rsvOf (w : Word) : Byte := w.extractLsb' 16 8

/-- IMM, bits 15:0 of a command word (R60). -/
def immOf (w : Word) : Half := w.extractLsb' 0 16

/-- How a command takes the field IMM (spec/30_encoding.md R61, column IMM). -/
inductive OperandForm where
  /-- "must be 0". -/
  | none (i : Instr)
  /-- "any 16 bits". -/
  | half (mk : Half → Instr)
  /-- FLG.PACK: "b in bits 8:0; bits 15:9 must be 0". -/
  | nine (mk : Half → Instr)

/-- The opcode map of spec/30_encoding.md R61: the command of an opcode and its operand form. -/
def opcodeMap (opc : Byte) : Option OperandForm :=
  match opc.toNat with
  | 0x10 => some (.none .bsNew)
  | 0x11 => some (.half .bsSet)
  | 0x12 => some (.half .bsClr)
  | 0x13 => some (.half .bsTst)
  | 0x20 => some (.half .flgFromint)
  | 0x21 => some (.nine .flgPack)
  | 0x30 => some (.none .optClr)
  | 0x31 => some (.none .optPush)
  | 0x32 => some (.half .optGet)
  | 0x33 => some (.none .optEnc)
  | 0x34 => some (.none .optDec)
  | 0x40 => some (.none .csum)
  | 0x50 => some (.none .segEnc)
  | 0x51 => some (.none .segDec)
  | _ => none

/-- The last two tests of R63, on the field IMM. -/
def OperandForm.read (f : OperandForm) (imm : Half) : Except DecodeError Instr :=
  match f with
  | .none i => if imm ≠ 0#16 then .error .operandBits else .ok i
  | .half mk => .ok (mk imm)
  | .nine mk => if imm.extractLsb' 9 7 ≠ 0#7 then .error .packBits else .ok (mk imm)

/-- Decoding a command word (spec/30_encoding.md R63): the opcode first, then RSV, then IMM. -/
def decode (w : Word) : Except DecodeError Instr :=
  match opcodeMap (opcOf w) with
  | none => .error .unknownOpcode
  | some f => if rsvOf w ≠ 0#8 then .error .reservedBits else f.read (immOf w)

/-- A command word from its three fields (R60). -/
def cmd32 (opc : Byte) (imm : Half) : Word := opc ++ 0#8 ++ imm

/-- The command word of a command (spec/30_encoding.md R61; for FLG.PACK of a well-formed operand). -/
def encode : Instr → Word
  | .bsNew => cmd32 0x10#8 0#16
  | .bsSet mask => cmd32 0x11#8 mask
  | .bsClr mask => cmd32 0x12#8 mask
  | .bsTst mask => cmd32 0x13#8 mask
  | .flgFromint n => cmd32 0x20#8 n
  | .flgPack b => cmd32 0x21#8 b
  | .optClr => cmd32 0x30#8 0#16
  | .optPush => cmd32 0x31#8 0#16
  | .optGet i => cmd32 0x32#8 i
  | .optEnc => cmd32 0x33#8 0#16
  | .optDec => cmd32 0x34#8 0#16
  | .csum => cmd32 0x40#8 0#16
  | .segEnc => cmd32 0x50#8 0#16
  | .segDec => cmd32 0x51#8 0#16

/-- The value `match` of a command's row (spec/30_encoding.md R61). -/
def Instr.tableMatch : Instr → Word
  | .bsNew => 0x10000000#32
  | .bsSet _ => 0x11000000#32
  | .bsClr _ => 0x12000000#32
  | .bsTst _ => 0x13000000#32
  | .flgFromint _ => 0x20000000#32
  | .flgPack _ => 0x21000000#32
  | .optClr => 0x30000000#32
  | .optPush => 0x31000000#32
  | .optGet _ => 0x32000000#32
  | .optEnc => 0x33000000#32
  | .optDec => 0x34000000#32
  | .csum => 0x40000000#32
  | .segEnc => 0x50000000#32
  | .segDec => 0x51000000#32

/-- The value `mask` of a command's row (spec/30_encoding.md R61): the bits outside it are the operand. -/
def Instr.tableMask : Instr → Word
  | .bsNew => 0xFFFFFFFF#32
  | .bsSet _ => 0xFFFF0000#32
  | .bsClr _ => 0xFFFF0000#32
  | .bsTst _ => 0xFFFF0000#32
  | .flgFromint _ => 0xFFFF0000#32
  | .flgPack _ => 0xFFFFFE00#32
  | .optClr => 0xFFFFFFFF#32
  | .optPush => 0xFFFFFFFF#32
  | .optGet _ => 0xFFFF0000#32
  | .optEnc => 0xFFFFFFFF#32
  | .optDec => 0xFFFFFFFF#32
  | .csum => 0xFFFFFFFF#32
  | .segEnc => 0xFFFFFFFF#32
  | .segDec => 0xFFFFFFFF#32

/-- The command the decoder reads from a command word given as a number: the low `nbits` bits of w, where a number that
fits no 32-bit word is no command (spec/20_memory.md R44). -/
def decodeTableWord (nbits w : Nat) : Option Instr :=
  if w % 2 ^ nbits < 2 ^ 32 then
    match decode (BitVec.ofNat 32 (w % 2 ^ nbits)) with
    | .ok i => some i
    | .error _ => none
  else none

end Sys2Proof
end

