-- ==== Sys2Proof/Config.lean ====
section
/-! DEFINITION. What an instance of the block fixes for its whole life (spec/00_scope.md R3, the parameters marked
"argument"; spec/70_reset_and_hazards.md R203), and the free values (spec/93_implementation_defined.md U3, U4). -/

namespace Sys2Proof

/-- The parameter PAD_BYTE: which byte aligns the options (spec/43_options.md R117, 93 U1). -/
inductive PadByte where
  /-- 0x01, the default. -/
  | noOp
  /-- 0x00. -/
  | endOfList
deriving DecidableEq, Repr

/-- The parameter ISSET_MULTI: what BS.TST answers for a mask that is not a single bit (spec/41_bitset.md R93, 93 U2). -/
inductive IssetMulti where
  /-- Every bit of the mask is set; the default. -/
  | all
  /-- Some bit of the mask is set. -/
  | any
deriving DecidableEq, Repr

/-- The four parameters of spec/00_scope.md R3 that a model takes as arguments. `exec` and `step` have a fixed form, so an
instance's parameters stand in its State, where no request changes them (log 1). -/
structure Params where
  /-- PAD_BYTE. -/
  pad : PadByte
  /-- MIN_SEG_LEN, the least total length the external validator accepts. -/
  minSegLen : Nat
  /-- MAX_SEG_LEN, the greatest total length the external validator accepts. -/
  maxSegLen : Nat
  /-- ISSET_MULTI. -/
  issetMulti : IssetMulti
deriving DecidableEq, Repr

/-- The constraint of R3: MIN_SEG_LEN <= MAX_SEG_LEN <= 65535. -/
abbrev Params.Ok (p : Params) : Prop := p.minSegLen ≤ p.maxSegLen ∧ p.maxSegLen ≤ 65535

/-- The defaults of spec/00_scope.md R3. -/
def Params.default : Params where
  pad := .noOp
  minSegLen := 20
  maxSegLen := 65535
  issetMulti := .all

/-- FREE VALUE (93 U3, log 3): the byte that request number `draw` reads at address `addr` of buffer `space` when nothing
has been written there. -/
opaque Config.freeByte (draw space addr : Nat) : Byte

/-- FREE VALUE (93 U4, log 4): what request number `draw` returns when it is an RDB beyond a buffer or of an unknown
space. -/
opaque Config.openByte (draw : Nat) : Byte

/-- FREE VALUE (93 U4, log 4): what request number `draw` returns when it is an RD of an unmapped offset. -/
opaque Config.openWord (draw : Nat) : Word

end Sys2Proof
end

