-- ==== Sys2Proof/Machine/State.lean ====
section
/-! DEFINITION. The state of the block (spec/10_state.md R10 to R27) as plain data, what stands at its ports, the cause
codes by name, the stops, and the state after reset. -/

namespace Sys2Proof.Machine

/-- The four byte buffers (spec/10_state.md R22). -/
inductive Space where
  /-- Space 0: a serialized segment, or the input of SEG.DEC or CSUM. -/
  | segbuf
  /-- Space 1: the payload. -/
  | paybuf
  /-- Space 2: encoded options. -/
  | optbuf
  /-- Space 3: the value bytes of the option window. -/
  | owval
deriving DecidableEq, Repr

/-- The registers of spec/20_memory.md R41. -/
inductive Register where
  | cmd
  | status
  | tst
  | csumres
  | bs
  | sport
  | dport
  | seq
  | ack
  | flags
  | win
  | urg
  | llAttached
  | llFamily
  | llSrc
  | llDst
  | llProto
  | paylen
  | seglen
  | optlen
  | optcnt
  | owKind
  | owVlen
  /-- OW_W[j], an alias of four bytes of OWVAL (spec/10_state.md R21, R23). -/
  | owW (j : Fin 10)
deriving DecidableEq, Repr

/-- One host request (spec/20_memory.md R42). A register is named by its offset, a buffer by its space id. -/
inductive Request where
  /-- `WR reg, v`. -/
  | wr (off : Nat) (v : WData)
  /-- `RD reg`. -/
  | rd (off : Nat)
  /-- `WRB space, addr, b`. -/
  | wrb (space : Nat) (addr b : WData)
  /-- `RDB space, addr`. -/
  | rdb (space : Nat) (addr : WData)
deriving DecidableEq, Repr

/-- What reaches the block from outside, between two requests or as one (spec/70_reset_and_hazards.md R190, R206). -/
inductive Input where
  | request (r : Request)
  /-- The reset event. -/
  | reset
deriving DecidableEq, Repr

/-- What a read returns to the host (spec/20_memory.md R42, R45, R46). -/
inductive Reply where
  /-- The value RD returns. -/
  | reg (v : Word)
  /-- The byte RDB returns. -/
  | byte (b : Byte)
deriving DecidableEq, Repr

/-- The nine control flags in their declaration order (spec/42_flags.md R100). -/
inductive ControlFlag where
  | ns
  | cwr
  | ece
  | urg
  | ack
  | psh
  | rst
  | syn
  | fin
deriving DecidableEq, Repr

/-- One option record (kind, value): kind 0 is EndOfList, kind 1 is NoOp, kind 2 and up is Sized or opaque
(spec/10_state.md R20). -/
structure OptRecord where
  kind : Byte
  value : List Byte
deriving DecidableEq, Repr

/-- How the last host write ended (spec/60_exceptions.md R170), by the condition of each row. -/
inductive Cause where
  /-- 0x00 the request succeeded. -/
  | success
  /-- 0x11 InvalidArgument: a port outside 0 .. 65535. -/
  | portRange
  /-- 0x12 InvalidArgument: a value outside the register's range. -/
  | valueRange
  /-- 0x13 InvalidArgument: a length, address, byte or index out of range. -/
  | lengthRange
  /-- 0x14 InvalidArgument: an ill-formed option record. -/
  | optionRecord
  /-- 0x15 InvalidArgument: the option list would encode to more than 40 bytes. -/
  | optionListSize
  /-- 0x21 MalformedHeader: fewer than 20 bytes. -/
  | headerTruncated
  /-- 0x22 MalformedHeader: reserved bits not zero. -/
  | headerReserved
  /-- 0x23 MalformedHeader: data offset 0 to 4. -/
  | dataOffsetLow
  /-- 0x24 MalformedHeader: data offset beyond the end of the input. -/
  | dataOffsetHigh
  /-- 0x31 MalformedOptions: a length byte of 0 or 1. -/
  | optionLength
  /-- 0x32 MalformedOptions: an option runs past the end of the field. -/
  | optionOverrun
  /-- 0x41 PreconditionViolation: no lower-layer reference. -/
  | noLowerLayer
  /-- 0x42 PreconditionViolation: a reference of the wrong kind. -/
  | wrongFamily
  /-- 0x51 LengthConstraintViolation. -/
  | segmentLength
  /-- 0x71 IllegalRequest: a command word with an unknown opcode. -/
  | unknownOpcode
  /-- 0x72 IllegalRequest: reserved or unused bits of the command word not zero. -/
  | commandBits
  /-- 0x73 IllegalRequest: a write to a read-only or unmapped register or to an unknown space. -/
  | illegalTarget
deriving DecidableEq, Repr

/-- The one stop of the model. The block itself never stops (spec/60_exceptions.md R181): every error of R170 is a NEXT
state with its cause code in STATUS. -/
inductive Fault where
  /-- A command would read or write a buffer at or beyond its capacity, which spec/20_memory.md R46 and R47 exclude.
  Raised by `State.reading` and `State.storing`, that is by OPT.GET, OPT.ENC, OPT.DEC, CSUM, SEG.ENC and SEG.DEC, and only
  in a state that breaks `State.Ok` (a length register above its range, an option list that is not OPTS-OK), which no run
  from reset reaches. Safe: the model stops where the spec says nothing (log 7). -/
  | beyondCapacity (space : Space)
deriving DecidableEq, Repr

/-- Refusals. The model raises none. -/
inductive Refusal where
  /-- An instruction that has no meaning yet, raised by `exec`'s arm for it: no arm does. Safe: the model stops. -/
  | notModelled (mnemonic : String)
deriving DecidableEq, Repr

/-- The bytes of a buffer that have been written: (address, byte) with addresses strictly rising. An address that is not
listed has never been written since reset and reads as a free value (spec/10_state.md R24, log 3). -/
abbrev Memory := List Host.Cell

/-- The state of the block. Every field but the last four of the list is the spec's (spec/10_state.md R10). OPTCNT is the
length of `opts` (log 5), OW_W[j] is four bytes of `owval` (R21), and CMD stores nothing (R19). -/
structure State where
  /-- STATUS: the cause code of the most recent host write (R19). -/
  status : BitVec 8
  /-- TST: the answer of the most recent BS.TST (R19). -/
  tst : BitVec 1
  /-- CSUMRES: the result of the most recent CSUM (R19). -/
  csumres : BitVec 16
  /-- BS: the generic BitSet (R16). -/
  bs : BitVec 16
  /-- SPORT (R14). -/
  sport : BitVec 16
  /-- DPORT (R14). -/
  dport : BitVec 16
  /-- SEQ (R14). -/
  seq : BitVec 32
  /-- ACK (R14). -/
  ack : BitVec 32
  /-- FLAGS: the control-flag set (R15). -/
  flags : BitVec 9
  /-- WIN (R14). -/
  win : BitVec 16
  /-- URG: the urgent pointer (R14). -/
  urg : BitVec 16
  /-- LL_ATTACHED: 1 when a lower-layer reference is present (R17). -/
  llAttached : BitVec 1
  /-- LL_FAMILY: 4 is the only kind accepted (R17). -/
  llFamily : BitVec 8
  /-- LL_SRC: bits 31:24 are the first address byte (R17). -/
  llSrc : BitVec 32
  /-- LL_DST (R17). -/
  llDst : BitVec 32
  /-- LL_PROTO (R17). -/
  llProto : BitVec 8
  /-- PAYLEN: the number of valid bytes of PAYBUF (R18). -/
  paylen : BitVec 16
  /-- SEGLEN: the number of valid bytes of SEGBUF (R18). -/
  seglen : BitVec 17
  /-- OPTLEN: the number of valid bytes of OPTBUF (R18). -/
  optlen : BitVec 6
  /-- OPTS: the option list, in order (R20). -/
  opts : List OptRecord
  /-- OW_KIND (R21). -/
  owKind : BitVec 8
  /-- OW_VLEN (R21). -/
  owVlen : BitVec 8
  /-- SEGBUF (R22). -/
  segbuf : Memory
  /-- PAYBUF (R22). -/
  paybuf : Memory
  /-- OPTBUF (R22). -/
  optbuf : Memory
  /-- OWVAL (R22). -/
  owval : Memory
  /-- The model's own: the parameters of the block (spec/00_scope.md R3, log 1). -/
  params : Params
  /-- The model's own: what the host has issued and the block has not yet served, oldest first (log 2). -/
  inputs : List Input
  /-- The model's own: what RD and RDB have returned, oldest first (spec/70_reset_and_hazards.md R205, log 2). -/
  returned : List Reply
  /-- The model's own: how many requests have been served, the index of the free values (log 3). -/
  draw : Nat
deriving DecidableEq, Repr

/-- The reset values (spec/10_state.md R27, spec/70_reset_and_hazards.md R191) of a block with parameters p: every
register 0, the empty option list, no byte of a buffer written; nothing issued and nothing returned. -/
def State.resetOf (p : Params) : State where
  status := 0x00#8
  tst := 0#1
  csumres := 0#16
  bs := 0#16
  sport := 0#16
  dport := 0#16
  seq := 0#32
  ack := 0#32
  flags := 0#9
  win := 0#16
  urg := 0#16
  llAttached := 0#1
  llFamily := 0#8
  llSrc := 0#32
  llDst := 0#32
  llProto := 0#8
  paylen := 0#16
  seglen := 0#17
  optlen := 0#6
  opts := []
  owKind := 0#8
  owVlen := 0#8
  segbuf := []
  paybuf := []
  optbuf := []
  owval := []
  params := p
  inputs := []
  returned := []
  draw := 0

/-- The state right after reset of a block with the default parameters (log 1). -/
def State.reset : State := State.resetOf Params.default

end Sys2Proof.Machine
end

