-- ==== Sys2Proof/Machine/Ops.lean ====
section
/-! DEFINITION. The named operations over the buffers and the registers: byte sequences and their byte order, one buffer
as data, `MemRead` and `MemWrite`, and how a request ends: with success, with an error (`State.raise`, the block's one
form of taking an exception), or with a value returned. -/

namespace Sys2Proof.Machine

/-! ### Byte order: every multi-byte field is big-endian (spec/00_scope.md R4, R5) -/

/-- `be16(v)`, the bytes v[15:8], v[7:0]. -/
def be16 (v : BitVec 16) : List Byte := [v.extractLsb' 8 8, v.extractLsb' 0 8]

/-- `be32(v)`, the bytes v[31:24], v[23:16], v[15:8], v[7:0]. -/
def be32 (v : BitVec 32) : List Byte :=
  [v.extractLsb' 24 8, v.extractLsb' 16 8, v.extractLsb' 8 8, v.extractLsb' 0 8]

/-- `u16be(B, i)`, for i + 1 < len(B). -/
def u16be (B : List Byte) (i : Nat) : BitVec 16 := B.getD i 0#8 ++ B.getD (i + 1) 0#8

/-- `u32be(B, i)`, for i + 3 < len(B). -/
def u32be (B : List Byte) (i : Nat) : BitVec 32 :=
  B.getD i 0#8 ++ B.getD (i + 1) 0#8 ++ B.getD (i + 2) 0#8 ++ B.getD (i + 3) 0#8

/-! ### The buffers (spec/10_state.md R22) -/

/-- The space id of a buffer (R22). -/
def Space.id : Space → Nat
  | .segbuf => 0
  | .paybuf => 1
  | .optbuf => 2
  | .owval => 3

/-- The capacity of a buffer in bytes (spec/00_scope.md R3, spec/10_state.md R22). -/
def Space.capacity : Space → Nat
  | .segbuf => 65547
  | .paybuf => 65527
  | .optbuf => 40
  | .owval => 40

/-- The buffer a request names by its space id (spec/20_memory.md R42). -/
def spaceOf (id : Nat) : Option Space :=
  match id with
  | 0 => some .segbuf
  | 1 => some .paybuf
  | 2 => some .optbuf
  | 3 => some .owval
  | _ => none

/-- The byte last written at an address, if any. -/
def Memory.lookup (m : Memory) (a : Nat) : Option Byte :=
  match m with
  | [] => none
  | c :: rest => if c.1 = a then some c.2 else Memory.lookup rest a

/-- The cells of the bytes B from address a on. -/
def Memory.cells (a : Nat) (B : List Byte) : Memory :=
  match B with
  | [] => []
  | b :: rest => (a, b) :: Memory.cells (a + 1) rest

/-- Writing the bytes B from address a: the cells below and the cells above the bytes written stay (spec/20_memory.md
R47). -/
def Memory.store (m : Memory) (a : Nat) (B : List Byte) : Memory :=
  m.filter (fun c => c.1 < a) ++ Memory.cells a B ++ m.filter (fun c => a + B.length ≤ c.1)

/-- The canonical form of a buffer of `cap` bytes: addresses strictly rising, all below the capacity. An unlisted address
reads as a free value, which equals no byte a cell could hold, so no cell is superfluous. -/
abbrev Memory.wf (cap : Nat) (m : Memory) : Prop :=
  (m.map Prod.fst).Pairwise (· < ·) ∧ ∀ c ∈ m, c.1 < cap

/-- The content of a buffer. -/
def State.buf (s : State) : Space → Memory
  | .segbuf => s.segbuf
  | .paybuf => s.paybuf
  | .optbuf => s.optbuf
  | .owval => s.owval

/-- The state with another content of one buffer. -/
def State.setBuf (s : State) (sp : Space) (m : Memory) : State :=
  match sp with
  | .segbuf => { s with segbuf := m }
  | .paybuf => { s with paybuf := m }
  | .optbuf => { s with optbuf := m }
  | .owval => { s with owval := m }

/-- What the request being served reads at one address of a buffer: the byte written there, else a free value of this
request and address (spec/10_state.md R24; spec/93_implementation_defined.md U3; log 3). -/
def State.readByte (s : State) (sp : Space) (a : Nat) : Byte :=
  (Memory.lookup (s.buf sp) a).getD (Config.freeByte s.draw sp.id a)

/-- `MemRead(space, addr, n)` (spec/20_memory.md R46). -/
def State.memRead (s : State) (sp : Space) (a n : Nat) : List Byte :=
  (List.range' a n).map (s.readByte sp)

/-- `MemWrite(space, addr, n, B)` with n = len(B) (spec/20_memory.md R47). -/
def State.memWrite (s : State) (sp : Space) (a : Nat) (B : List Byte) : State :=
  s.setBuf sp (Memory.store (s.buf sp) a B)

/-! ### How a request ends (spec/60_exceptions.md R173, R174) -/

/-- The cause codes (spec/60_exceptions.md R170). -/
def Cause.code : Cause → BitVec 8
  | .success => 0x00#8
  | .portRange => 0x11#8
  | .valueRange => 0x12#8
  | .lengthRange => 0x13#8
  | .optionRecord => 0x14#8
  | .optionListSize => 0x15#8
  | .headerTruncated => 0x21#8
  | .headerReserved => 0x22#8
  | .dataOffsetLow => 0x23#8
  | .dataOffsetHigh => 0x24#8
  | .optionLength => 0x31#8
  | .optionOverrun => 0x32#8
  | .noLowerLayer => 0x41#8
  | .wrongFamily => 0x42#8
  | .segmentLength => 0x51#8
  | .unknownOpcode => 0x71#8
  | .commandBits => 0x72#8
  | .illegalTarget => 0x73#8

/-- All causes, in the order of R170's table. -/
def Cause.all : List Cause :=
  [.success, .portRange, .valueRange, .lengthRange, .optionRecord, .optionListSize, .headerTruncated, .headerReserved,
   .dataOffsetLow, .dataOffsetHigh, .optionLength, .optionOverrun, .noLowerLayer, .wrongFamily, .segmentLength,
   .unknownOpcode, .commandBits, .illegalTarget]

/-- The kinds of error (spec/60_exceptions.md R170; the field KIND of STATUS, spec/10_state.md R19). -/
def kindOf (code : BitVec 8) : BitVec 4 := code.extractLsb' 4 4

/-- A write that succeeded: STATUS is written last, with 0x00 (R174). The request is then served (log 3). -/
def State.succeed (s : State) : State := { s with status := Cause.success.code, draw := s.draw + 1 }

/-- TAKING AN EXCEPTION, `raise <Kind>(cause)`: STATUS receives the cause code, "the one and only state change" (R173).
There is no saved pc, no saved status, no mode, no vector (R178) and no return from it (R179). -/
def State.raise (s : State) (c : Cause) : State := { s with status := c.code, draw := s.draw + 1 }

/-- A read: the value goes to the host and nothing else changes, STATUS included (R174; spec/20_memory.md R45, R46). -/
def State.answer (s : State) (r : Reply) : State := { s with returned := s.returned ++ [r], draw := s.draw + 1 }

/-- A command's `MemRead(space, 0, n)`, which needs n <= capacity (spec/20_memory.md R46). -/
def State.reading (s : State) (sp : Space) (n : Nat) (k : List Byte → Host.Outcome State Fault Refusal) :
    Host.Outcome State Fault Refusal :=
  if n ≤ sp.capacity then k (s.memRead sp 0 n) else .fault (.beyondCapacity sp)

/-- A command's `MemWrite(space, 0, len(B), B)`, which needs len(B) <= capacity (spec/20_memory.md R47). -/
def State.storing (s : State) (sp : Space) (B : List Byte) (k : State → Host.Outcome State Fault Refusal) :
    Host.Outcome State Fault Refusal :=
  if B.length ≤ sp.capacity then k (s.memWrite sp 0 B) else .fault (.beyondCapacity sp)

/-- OPTCNT: the number of records of OPTS (spec/10_state.md R18, R20; log 5). -/
def State.optcnt (s : State) : BitVec 6 := BitVec.ofNat 6 s.opts.length

/-- The reset event (spec/70_reset_and_hazards.md R190): every piece of the block's state takes its reset value. The
parameters stay (R203), and so does what the host has issued and received (log 9). -/
def State.resetEvent (s : State) : State :=
  { State.resetOf s.params with inputs := s.inputs, returned := s.returned, draw := s.draw + 1 }

end Sys2Proof.Machine
end

