-- ==== Sys2Proof/Machine/Operands.lean ====
section
/-! DEFINITION. The operand forms of the host's requests: the register map (spec/20_memory.md R41), the legal range of each
register (R43), reading a register (R45) and storing into one. A command's own operand is the field IMM, taken apart in
Decode; its other operands are the registers and buffers its meaning names (spec/30_encoding.md R62). -/

namespace Sys2Proof.Machine

/-- The offset of a register (spec/20_memory.md R41). -/
def Register.offset : Register → Nat
  | .cmd => 0x000
  | .status => 0x004
  | .tst => 0x008
  | .csumres => 0x00C
  | .bs => 0x010
  | .sport => 0x020
  | .dport => 0x024
  | .seq => 0x028
  | .ack => 0x02C
  | .flags => 0x030
  | .win => 0x034
  | .urg => 0x038
  | .llAttached => 0x040
  | .llFamily => 0x044
  | .llSrc => 0x048
  | .llDst => 0x04C
  | .llProto => 0x050
  | .paylen => 0x060
  | .seglen => 0x064
  | .optlen => 0x068
  | .optcnt => 0x06C
  | .owKind => 0x080
  | .owVlen => 0x084
  | .owW j => 0x0C0 + 4 * j.val

/-- All registers, in the order of R41's table. -/
def Register.all : List Register :=
  [.cmd, .status, .tst, .csumres, .bs, .sport, .dport, .seq, .ack, .flags, .win, .urg, .llAttached, .llFamily, .llSrc,
   .llDst, .llProto, .paylen, .seglen, .optlen, .optcnt, .owKind, .owVlen] ++ (List.finRange 10).map .owW

/-- The register at an offset; every other offset is unmapped (spec/20_memory.md R41). -/
def regAt (off : Nat) : Option Register := Register.all.find? (fun r => r.offset == off)

/-- What a host write to a register does (spec/20_memory.md R41 column access, R43, R44). -/
inductive WriteAccess where
  /-- CMD: the write executes a command. -/
  | executes
  /-- The write is refused. -/
  | readOnly
  /-- The value must lie in 0 .. top, else the write is refused with the cause given. -/
  | checked (top : Nat) (cause : Cause)

/-- The access of every register, with the top of its legal range and the cause of a refusal (spec/20_memory.md R43). -/
def Register.access : Register → WriteAccess
  | .cmd => .executes
  | .status => .readOnly
  | .tst => .readOnly
  | .csumres => .readOnly
  | .bs => .readOnly
  | .sport => .checked 65535 .portRange
  | .dport => .checked 65535 .portRange
  | .seq => .checked 4294967295 .valueRange
  | .ack => .checked 4294967295 .valueRange
  | .flags => .readOnly
  | .win => .checked 65535 .valueRange
  | .urg => .checked 65535 .valueRange
  | .llAttached => .checked 1 .valueRange
  | .llFamily => .checked 255 .valueRange
  | .llSrc => .checked 4294967295 .valueRange
  | .llDst => .checked 4294967295 .valueRange
  | .llProto => .checked 255 .valueRange
  | .paylen => .checked 65527 .lengthRange
  | .seglen => .checked 65547 .lengthRange
  | .optlen => .checked 40 .lengthRange
  | .optcnt => .readOnly
  | .owKind => .checked 255 .valueRange
  | .owVlen => .checked 255 .valueRange
  | .owW _ => .checked 4294967295 .valueRange

/-- The value of a register as `RD` returns it, zero-extended (spec/20_memory.md R45). CMD reads as 0; OW_W[j] is
`u32be(OWVAL, 4j)` (spec/10_state.md R23). -/
def State.readReg (s : State) : Register → Word
  | .cmd => 0#32
  | .status => s.status.setWidth 32
  | .tst => s.tst.setWidth 32
  | .csumres => s.csumres.setWidth 32
  | .bs => s.bs.setWidth 32
  | .sport => s.sport.setWidth 32
  | .dport => s.dport.setWidth 32
  | .seq => s.seq
  | .ack => s.ack
  | .flags => s.flags.setWidth 32
  | .win => s.win.setWidth 32
  | .urg => s.urg.setWidth 32
  | .llAttached => s.llAttached.setWidth 32
  | .llFamily => s.llFamily.setWidth 32
  | .llSrc => s.llSrc
  | .llDst => s.llDst
  | .llProto => s.llProto.setWidth 32
  | .paylen => s.paylen.setWidth 32
  | .seglen => s.seglen.setWidth 32
  | .optlen => s.optlen.setWidth 32
  | .optcnt => s.optcnt.setWidth 32
  | .owKind => s.owKind.setWidth 32
  | .owVlen => s.owVlen.setWidth 32
  | .owW j => u32be (s.memRead .owval (4 * j.val) 4) 0

/-- `x[reg] <- n` for a number in the register's range (spec/20_memory.md R43). OW_W[j] writes four bytes of OWVAL
(spec/10_state.md R23). The registers that no host write stores into keep their value. -/
def State.storeReg (s : State) (r : Register) (n : Nat) : State :=
  match r with
  | .cmd => s
  | .status => s
  | .tst => s
  | .csumres => s
  | .bs => s
  | .sport => { s with sport := BitVec.ofNat 16 n }
  | .dport => { s with dport := BitVec.ofNat 16 n }
  | .seq => { s with seq := BitVec.ofNat 32 n }
  | .ack => { s with ack := BitVec.ofNat 32 n }
  | .flags => s
  | .win => { s with win := BitVec.ofNat 16 n }
  | .urg => { s with urg := BitVec.ofNat 16 n }
  | .llAttached => { s with llAttached := BitVec.ofNat 1 n }
  | .llFamily => { s with llFamily := BitVec.ofNat 8 n }
  | .llSrc => { s with llSrc := BitVec.ofNat 32 n }
  | .llDst => { s with llDst := BitVec.ofNat 32 n }
  | .llProto => { s with llProto := BitVec.ofNat 8 n }
  | .paylen => { s with paylen := BitVec.ofNat 16 n }
  | .seglen => { s with seglen := BitVec.ofNat 17 n }
  | .optlen => { s with optlen := BitVec.ofNat 6 n }
  | .optcnt => s
  | .owKind => { s with owKind := BitVec.ofNat 8 n }
  | .owVlen => { s with owVlen := BitVec.ofNat 8 n }
  | .owW j => s.memWrite .owval (4 * j.val) (be32 (BitVec.ofNat 32 n))

end Sys2Proof.Machine
end

