-- ==== Sys2Proof/Machine/Flags.lean ====
section
/-! DEFINITION. Every flag computation of the spec: the masks and constructors of the control-flag set, its accessors and
its textual form (spec/42_flags.md, spec/30_encoding.md R72), and the functions of the bit-flag container with the answer
of BS.TST (spec/41_bitset.md). No command sets a flag as a side effect of arithmetic (spec/10_state.md R15). -/

namespace Sys2Proof.Machine

/-! ### The control-flag set -/

/-- The declaration order NS, CWR, ECE, URG, ACK, PSH, RST, SYN, FIN (spec/42_flags.md R100). -/
def ControlFlag.order : List ControlFlag := [.ns, .cwr, .ece, .urg, .ack, .psh, .rst, .syn, .fin]

/-- The bit of FLAGS a flag stands in (spec/10_state.md R15). -/
def ControlFlag.bit : ControlFlag → Nat
  | .ns => 8
  | .cwr => 7
  | .ece => 6
  | .urg => 5
  | .ack => 4
  | .psh => 3
  | .rst => 2
  | .syn => 1
  | .fin => 0

/-- The masks 256, 128, 64, 32, 16, 8, 4, 2, 1 (spec/42_flags.md R100). -/
def ControlFlag.mask : ControlFlag → BitVec 9
  | .ns => 256#9
  | .cwr => 128#9
  | .ece => 64#9
  | .urg => 32#9
  | .ack => 16#9
  | .psh => 8#9
  | .rst => 4#9
  | .syn => 2#9
  | .fin => 1#9

/-- The names of spec/30_encoding.md R72. -/
def ControlFlag.name : ControlFlag → String
  | .ns => "ns"
  | .cwr => "cwr"
  | .ece => "ece"
  | .urg => "urg"
  | .ack => "ack"
  | .psh => "psh"
  | .rst => "rst"
  | .syn => "syn"
  | .fin => "fin"

/-- The read-only accessor of a flag: `(x[FLAGS] & mask(X)) != 0` (spec/42_flags.md R103). -/
def flagIsSet (f : BitVec 9) (x : ControlFlag) : Bool := f &&& x.mask != 0#9

/-- `flags_from_int(n) = n mod 512`, for every integer n (spec/42_flags.md R101). -/
def flagsFromInt (n : Int) : BitVec 9 := BitVec.ofInt 9 n

/-- One turn of the loop of R102: the container's `set(mask(X), given(X))`. -/
def flagsApply (given : ControlFlag → Bool) (v : BitVec 9) (x : ControlFlag) : BitVec 9 :=
  if given x then v ||| x.mask else v &&& ~~~x.mask

/-- The flag set constructed from nine named booleans, starting from all bits clear (spec/42_flags.md R102). -/
def flagsFromBools (given : ControlFlag → Bool) : BitVec 9 := ControlFlag.order.foldl (flagsApply given) 0#9

/-- The nine booleans of FLG.PACK's operand: bit 8 is NS, bit 0 is FIN (spec/30_encoding.md R62). -/
def packOperand (b : Half) (x : ControlFlag) : Bool := b.getLsbD x.bit

/-- `flags_to_string` (spec/30_encoding.md R72, spec/42_flags.md R105). -/
def flagsToString (f : BitVec 9) : String :=
  String.intercalate " " ((ControlFlag.order.filter (flagIsSet f)).map ControlFlag.name)

/-! ### The bit-flag container -/

/-- `set(v, m)` (spec/41_bitset.md R91, R94). -/
def bitsSet (v m : Half) : Half := v ||| m

/-- `clr(v, m)` (spec/41_bitset.md R92, R94). -/
def bitsClr (v m : Half) : Half := v &&& (~~~m &&& 0xFFFF#16)

/-- "mask has exactly one bit set" (spec/41_bitset.md R93). -/
def isSingleBit (m : Half) : Bool := (List.range 16).countP (fun i => m.getLsbD i) == 1

/-- The answer of BS.TST for the set v and the mask m (spec/41_bitset.md R93). -/
def bitsTst (multi : IssetMulti) (v m : Half) : Bool :=
  if isSingleBit m then v &&& m != 0#16
  else
    match multi with
    | .all => v &&& m == m
    | .any => v &&& m != 0#16

end Sys2Proof.Machine
end

