-- ==== Sys2Proof/Machine/Bitset.lean ====
section
/-! DEFINITION. The commands of the bit-flag container (spec/41_bitset.md). -/

namespace Sys2Proof.Machine

/-- BS.NEW (spec/41_bitset.md R90). -/
def execBsNew (s : State) : Host.Outcome State Fault Refusal :=
  .next { s with bs := 0#16 }.succeed

/-- BS.SET mask (spec/41_bitset.md R91). -/
def execBsSet (mask : Half) (s : State) : Host.Outcome State Fault Refusal :=
  .next { s with bs := bitsSet s.bs mask }.succeed

/-- BS.CLR mask (spec/41_bitset.md R92). -/
def execBsClr (mask : Half) (s : State) : Host.Outcome State Fault Refusal :=
  .next { s with bs := bitsClr s.bs mask }.succeed

/-- BS.TST mask (spec/41_bitset.md R93). -/
def execBsTst (mask : Half) (s : State) : Host.Outcome State Fault Refusal :=
  .next { s with tst := BitVec.ofBool (bitsTst s.params.issetMulti s.bs mask) }.succeed

end Sys2Proof.Machine
end

