-- ==== Sys2Proof/Machine/ControlFlags.lean ====
section
/-! DEFINITION. The constructing commands of the control-flag set (spec/42_flags.md). -/

namespace Sys2Proof.Machine

/-- FLG.FROMINT n (spec/42_flags.md R101). -/
def execFlgFromint (n : Half) (s : State) : Host.Outcome State Fault Refusal :=
  .next { s with flags := flagsFromInt n.toNat }.succeed

/-- FLG.PACK b (spec/42_flags.md R102). Bits 15:9 of b, which no command word carries (spec/30_encoding.md R63), are not
looked at (log 11). -/
def execFlgPack (b : Half) (s : State) : Host.Outcome State Fault Refusal :=
  .next { s with flags := flagsFromBools (packOperand b) }.succeed

end Sys2Proof.Machine
end

