-- ==== Sys2Proof/Machine/Checksum.lean ====
section
/-! DEFINITION. The checksum engine (spec/44_checksum.md): the one definition of the checksum, shared by CSUM and SEG.ENC,
and the command CSUM. -/

namespace Sys2Proof.Machine

/-- `B'` of spec/44_checksum.md R131: a zero byte is logically appended to a sequence of odd length. -/
def padEven (B : List Byte) : List Byte := if B.length % 2 = 1 then B ++ [0x00#8] else B

/-- The sum of the 16-bit big-endian words of a sequence of even length, an unbounded integer (R131). -/
def sumWords (B : List Byte) : Nat :=
  match B with
  | a :: b :: rest => (a.toNat * 256 + b.toNat) + sumWords rest
  | _ => 0

/-- The loop of `fold`, at most `fuel` turns (R131). -/
def foldLoop (fuel S : Nat) : Nat :=
  match fuel with
  | 0 => S
  | fuel + 1 => if S > 0xFFFF then foldLoop fuel (S % 65536 + S / 65536) else S

/-- `fold` (R131): folds until no carry remains. Each turn makes S smaller, so S turns are enough (log 14). -/
def fold (S : Nat) : Nat := foldLoop S S

/-- `checksum` (R131): the one's complement of the folded sum, cut to 16 bits. -/
def checksum (B : List Byte) : BitVec 16 := ~~~(BitVec.ofNat 16 (fold (sumWords (padEven B))))

/-- CSUM (spec/44_checksum.md R132). -/
def execCsum (s : State) : Host.Outcome State Fault Refusal :=
  s.reading .segbuf s.seglen.toNat fun B => .next { s with csumres := checksum B }.succeed

end Sys2Proof.Machine
end

