-- ==== Sys2Proof/Machine/Options.lean ====
section
/-! DEFINITION. The TCP options codec (spec/43_options.md): a record and its encoding, the list's encoding with its padding,
the decoder, and the five commands. -/

namespace Sys2Proof.Machine

/-! ### Encode -/

/-- `opt_enc1` (spec/43_options.md R110; formats of spec/30_encoding.md R69). -/
def optEnc1 (r : OptRecord) : List Byte :=
  if r.kind = 0#8 then [0x00#8]
  else if r.kind = 1#8 then [0x01#8]
  else [r.kind, BitVec.ofNat 8 (2 + r.value.length)] ++ r.value

/-- `opts_raw` (spec/43_options.md R115). -/
def optsRaw (l : List OptRecord) : List Byte := l.flatMap optEnc1

/-- `enclen` (spec/10_state.md R20). -/
def encLen (r : OptRecord) : Nat := if r.kind.toNat < 2 then 1 else 2 + r.value.length

/-- `rawlen` (spec/10_state.md R20). -/
def rawLen (l : List OptRecord) : Nat := (l.map encLen).sum

/-- OPTS-OK for one record (spec/10_state.md R20): EndOfList and NoOp carry no value, and a value has at most 38 bytes. -/
abbrev OptRecord.Ok (r : OptRecord) : Prop := (r.kind.toNat < 2 → r.value.length = 0) ∧ r.value.length ≤ 38

/-- The invariant OPTS-OK (spec/10_state.md R20). -/
abbrev OptsOk (l : List OptRecord) : Prop := (∀ r ∈ l, r.Ok) ∧ rawLen l ≤ 40

/-- PAD_BYTE (spec/00_scope.md R3). -/
def PadByte.byte (p : PadByte) : Byte :=
  match p with
  | .noOp => 0x01#8
  | .endOfList => 0x00#8

/-- `(-len) mod 4`, with the floor modulus (spec/43_options.md R117, spec/44_checksum.md R136). -/
def padCount (len : Nat) : Nat := ((-(len : Int)) % 4).toNat

/-- `opts_encode` (spec/43_options.md R117). -/
def optsEncode (pad : PadByte) (l : List OptRecord) : List Byte :=
  optsRaw l ++ List.replicate (padCount (optsRaw l).length) (PadByte.byte pad)

/-! ### Decode -/

/-- The scan of spec/43_options.md R122 over what is left of the field, at most `fuel` items. Each item takes at least one
byte, so as many items as there are bytes is enough (log 14). -/
def optsScan (fuel : Nat) (B : List Byte) : Except Cause (List OptRecord) :=
  match fuel, B with
  | _, [] => .ok []
  | 0, _ :: _ => .ok []
  | fuel + 1, k :: rest =>
    if k = 0#8 then .ok [⟨0#8, []⟩]
    else if k = 1#8 then (optsScan fuel rest).map (⟨1#8, []⟩ :: ·)
    else
      match rest with
      | [] => .error .optionOverrun
      | L :: body =>
        if L.toNat < 2 then .error .optionLength
        else if body.length < L.toNat - 2 then .error .optionOverrun
        else (optsScan fuel (body.drop (L.toNat - 2))).map (⟨k, body.take (L.toNat - 2)⟩ :: ·)

/-- `opts_decode` (spec/43_options.md R122): the records, or the cause of the first bad item. -/
def optsDecode (B : List Byte) : Except Cause (List OptRecord) := optsScan B.length B

/-- The word view of a value: `u32be(V, 4j)` for 4j + 3 < len(V) (spec/10_state.md R23). -/
def wordView (V : List Byte) (j : Nat) : Option Word := if 4 * j + 3 < V.length then some (u32be V (4 * j)) else none

/-! ### The commands -/

/-- OPT.CLR (spec/43_options.md R111). -/
def execOptClr (s : State) : Host.Outcome State Fault Refusal :=
  .next { s with opts := [] }.succeed

/-- The record in the option window, as OPT.PUSH reads it (spec/43_options.md R112). -/
def State.windowRecord (s : State) : OptRecord :=
  ⟨s.owKind, if 2 ≤ s.owKind.toNat then s.memRead .owval 0 s.owVlen.toNat else []⟩

/-- `e`, the `enclen` of the record in the option window (spec/43_options.md R112). -/
def State.windowEncLen (s : State) : Nat := if s.owKind.toNat < 2 then 1 else 2 + s.owVlen.toNat

/-- OPT.PUSH (spec/43_options.md R112). -/
def execOptPush (s : State) : Host.Outcome State Fault Refusal :=
  let k := s.owKind.toNat
  let n := s.owVlen.toNat
  if k < 2 ∧ n ≠ 0 then .next (s.raise .optionRecord)
  else if 38 < n then .next (s.raise .optionRecord)
  else if 40 < rawLen s.opts + s.windowEncLen then .next (s.raise .optionListSize)
  else .next { s with opts := s.opts ++ [s.windowRecord] }.succeed

/-- OPT.GET i (spec/43_options.md R113): the value's bytes, then zeros up to 40 bytes. -/
def execOptGet (i : Half) (s : State) : Host.Outcome State Fault Refusal :=
  match s.opts[i.toNat]? with
  | none => .next (s.raise .lengthRange)
  | some r =>
    { s with owKind := r.kind, owVlen := BitVec.ofNat 8 r.value.length }.storing .owval
      (r.value ++ List.replicate (40 - r.value.length) 0x00#8) fun t => .next t.succeed

/-- OPT.ENC (spec/43_options.md R118). -/
def execOptEnc (s : State) : Host.Outcome State Fault Refusal :=
  let B := optsEncode s.params.pad s.opts
  s.storing .optbuf B fun t => .next { t with optlen := BitVec.ofNat 6 B.length }.succeed

/-- OPT.DEC (spec/43_options.md R123). -/
def execOptDec (s : State) : Host.Outcome State Fault Refusal :=
  s.reading .optbuf s.optlen.toNat fun B =>
    match optsDecode B with
    | .error c => .next (s.raise c)
    | .ok l => .next { s with opts := l }.succeed

end Sys2Proof.Machine
end

