-- ==== Sys2Proof/Machine/Segment.lean ====
section
/-! DEFINITION. The TCP segment codec (spec/45_segment.md): the pieces of a segment, serializing one (SEG.ENC) and parsing
one (SEG.DEC). -/

namespace Sys2Proof.Machine

/-! ### Serialize -/

/-- `ob`, the encoded options of the descriptor (spec/45_segment.md R141). -/
def State.optionBytes (s : State) : List Byte := optsEncode s.params.pad s.opts

/-- `dataOffset = 5 + len(ob) / 4` (R141). -/
def State.dataOffset (s : State) : Nat := 5 + s.optionBytes.length / 4

/-- `of = (dataOffset << 12) | x[FLAGS]` (R142; spec/30_encoding.md R65). -/
def State.offsetFlags (s : State) : BitVec 16 := BitVec.ofNat 16 (s.dataOffset <<< 12 ||| s.flags.toNat)

/-- `hdr`, the 20-byte fixed header with a zero checksum field (R142; spec/30_encoding.md R64). -/
def State.header (s : State) : List Byte :=
  be16 s.sport ++ be16 s.dport ++ be32 s.seq ++ be32 s.ack ++ be16 s.offsetFlags ++ be16 s.win ++ be16 0#16 ++ be16 s.urg

/-- `seglen = dataOffset * 4 + x[PAYLEN]`, an unbounded integer (R143). -/
def State.segmentLength (s : State) : Nat := s.dataOffset * 4 + s.paylen.toNat

/-- `ph`, the 12-byte pseudo-header (R143; spec/30_encoding.md R68). -/
def State.pseudoHeader (s : State) : List Byte :=
  be32 s.llSrc ++ be32 s.llDst ++ [0x00#8] ++ [s.llProto] ++ be16 (BitVec.ofNat 16 (s.segmentLength % 65536))

/-- `c`, the checksum over pseudo-header, header, options and payload (R144). -/
def State.segmentChecksum (s : State) (pay : List Byte) : BitVec 16 :=
  checksum (s.pseudoHeader ++ s.header ++ s.optionBytes ++ pay)

/-- `out = hdr' ++ ob ++ pay`, with the checksum written over bytes 16 and 17 of the header (R144, R146). -/
def State.segmentBytes (s : State) (pay : List Byte) : List Byte :=
  (s.header.take 16 ++ be16 (s.segmentChecksum pay) ++ s.header.drop 18) ++ s.optionBytes ++ pay

/-- SEG.ENC (spec/45_segment.md R145). -/
def execSegEnc (s : State) : Host.Outcome State Fault Refusal :=
  if s.llAttached = 0#1 then .next (s.raise .noLowerLayer)
  else if s.llFamily ≠ 4#8 then .next (s.raise .wrongFamily)
  else
    s.reading .paybuf s.paylen.toNat fun pay =>
      let out := s.segmentBytes pay
      if out.length < s.params.minSegLen ∨ s.params.maxSegLen < out.length then .next (s.raise .segmentLength)
      else s.storing .segbuf out fun t => .next { t with seglen := BitVec.ofNat 17 out.length }.succeed

/-! ### Deserialize -/

/-- What SEG.DEC takes from a segment (spec/45_segment.md R150). -/
structure Parsed where
  sport : BitVec 16
  dport : BitVec 16
  seq : BitVec 32
  ack : BitVec 32
  flags : BitVec 9
  win : BitVec 16
  urg : BitVec 16
  opts : List OptRecord
  payload : List Byte
deriving DecidableEq, Repr

/-- The data offset of an offset/flags field, its top 4 bits (spec/30_encoding.md R66). -/
def dataOffsetOf (f : BitVec 16) : Nat := (f.extractLsb' 12 4).toNat

/-- The reserved bits of an offset/flags field, bits 11:9 (spec/30_encoding.md R66). -/
def reservedOf (f : BitVec 16) : BitVec 3 := f.extractLsb' 9 3

/-- `optionsLength = (dataOffset - 5) * 4`, negative for a data offset below 5 (spec/30_encoding.md R66). -/
def optionsLengthOf (f : BitVec 16) : Int := ((dataOffsetOf f : Int) - 5) * 4

/-- The parse of spec/45_segment.md R150, in its order of tests; bytes 16 and 17, the received checksum, are dropped
(R151). -/
def segParse (B : List Byte) : Except Cause Parsed :=
  if B.length < 20 then .error .headerTruncated
  else
    let H := B.take 20
    let rem := B.drop 20
    let f := u16be H 12
    if reservedOf f ≠ 0#3 then .error .headerReserved
    else if optionsLengthOf f < 0 then .error .dataOffsetLow
    else if (rem.length : Int) < optionsLengthOf f then .error .dataOffsetHigh
    else
      let n := (optionsLengthOf f).toNat
      match optsDecode (rem.take n) with
      | .error c => .error c
      | .ok l =>
        .ok { sport := u16be H 0, dport := u16be H 2, seq := u32be H 4, ack := u32be H 8,
              flags := flagsFromInt f.toNat, win := u16be H 14, urg := u16be H 18, opts := l, payload := rem.drop n }

/-- The descriptor fields SEG.DEC writes, all but the payload's bytes (R150, R152). -/
def State.loadParsed (s : State) (p : Parsed) : State :=
  { s with sport := p.sport, dport := p.dport, seq := p.seq, ack := p.ack, flags := p.flags, win := p.win, urg := p.urg,
           opts := p.opts, paylen := BitVec.ofNat 16 p.payload.length, llAttached := 0#1 }

/-- SEG.DEC (spec/45_segment.md R150). -/
def execSegDec (s : State) : Host.Outcome State Fault Refusal :=
  s.reading .segbuf s.seglen.toNat fun B =>
    match segParse B with
    | .error c => .next (s.raise c)
    | .ok p => (s.loadParsed p).storing .paybuf p.payload fun t => .next t.succeed

end Sys2Proof.Machine
end

