-- ==== Sys2Proof/Machine/Dispatch.lean ====
section
/-! DEFINITION. One arm per command: the command written to CMD, run on the state as it is when the command is issued
(spec/30_encoding.md R61, R63). -/

namespace Sys2Proof.Machine

def exec (i : Instr) (s : State) : Host.Outcome State Fault Refusal :=
  match i with
  | .bsNew => Sys2Proof.Machine.execBsNew s
  | .bsSet mask => Sys2Proof.Machine.execBsSet mask s
  | .bsClr mask => Sys2Proof.Machine.execBsClr mask s
  | .bsTst mask => Sys2Proof.Machine.execBsTst mask s
  | .flgFromint n => Sys2Proof.Machine.execFlgFromint n s
  | .flgPack b => Sys2Proof.Machine.execFlgPack b s
  | .optClr => Sys2Proof.Machine.execOptClr s
  | .optPush => Sys2Proof.Machine.execOptPush s
  | .optGet k => Sys2Proof.Machine.execOptGet k s
  | .optEnc => Sys2Proof.Machine.execOptEnc s
  | .optDec => Sys2Proof.Machine.execOptDec s
  | .csum => Sys2Proof.Machine.execCsum s
  | .segEnc => Sys2Proof.Machine.execSegEnc s
  | .segDec => Sys2Proof.Machine.execSegDec s

end Sys2Proof.Machine
end

