-- ==== Sys2Proof/Machine/Requests.lean ====
section
/-! DEFINITION. The host's requests (spec/20_memory.md R42 to R47) and what the block does with the next input. -/

namespace Sys2Proof.Machine

/-- The cause of an illegal command word (spec/30_encoding.md R63). -/
def causeOf : DecodeError → Cause
  | .unknownOpcode => .unknownOpcode
  | .reservedBits => .commandBits
  | .operandBits => .commandBits
  | .packBits => .commandBits

/-- `WR CMD, v` (spec/20_memory.md R44): a value outside 0 .. 2^32-1 is refused, a word is decoded and runs. -/
def writeCmd (v : WData) (s : State) : Host.Outcome State Fault Refusal :=
  if v.toInt < 0 ∨ 4294967295 < v.toInt then .next (s.raise .valueRange)
  else
    match decode (BitVec.ofInt 32 v.toInt) with
    | .error e => .next (s.raise (causeOf e))
    | .ok i => exec i s

/-- `WR reg, v` (spec/20_memory.md R43, R44). -/
def serveWr (off : Nat) (v : WData) (s : State) : Host.Outcome State Fault Refusal :=
  match regAt off with
  | none => .next (s.raise .illegalTarget)
  | some r =>
    match r.access with
    | .executes => writeCmd v s
    | .readOnly => .next (s.raise .illegalTarget)
    | .checked top c =>
      if v.toInt < 0 ∨ (top : Int) < v.toInt then .next (s.raise c)
      else .next (s.storeReg r v.toInt.toNat).succeed

/-- `RD reg` (spec/20_memory.md R45). -/
def serveRd (off : Nat) (s : State) : Host.Outcome State Fault Refusal :=
  match regAt off with
  | none => .next (s.answer (.reg (Config.openWord s.draw)))
  | some r => .next (s.answer (.reg (s.readReg r)))

/-- `WRB space, addr, b` (spec/20_memory.md R42, R47). -/
def serveWrb (space : Nat) (addr b : WData) (s : State) : Host.Outcome State Fault Refusal :=
  match spaceOf space with
  | none => .next (s.raise .illegalTarget)
  | some sp =>
    if addr.toInt < 0 ∨ (sp.capacity : Int) ≤ addr.toInt ∨ b.toInt < 0 ∨ 255 < b.toInt then .next (s.raise .lengthRange)
    else .next (s.memWrite sp addr.toInt.toNat [BitVec.ofInt 8 b.toInt]).succeed

/-- `RDB space, addr` (spec/20_memory.md R42, R46). -/
def serveRdb (space : Nat) (addr : WData) (s : State) : Host.Outcome State Fault Refusal :=
  match spaceOf space with
  | none => .next (s.answer (.byte (Config.openByte s.draw)))
  | some sp =>
    if addr.toInt < 0 ∨ (sp.capacity : Int) ≤ addr.toInt then .next (s.answer (.byte (Config.openByte s.draw)))
    else .next (s.answer (.byte (s.readByte sp addr.toInt.toNat)))

/-- One host request, served whole (spec/20_memory.md R42, R52). -/
def serve (r : Request) (s : State) : Host.Outcome State Fault Refusal :=
  match r with
  | .wr off v => serveWr off v s
  | .rd off => serveRd off s
  | .wrb space addr b => serveWrb space addr b s
  | .rdb space addr => serveRdb space addr s

/-- What the block does with one input from outside: it serves a request, or is reset between two requests
(spec/70_reset_and_hazards.md R190). -/
def accept (i : Input) (s : State) : Host.Outcome State Fault Refusal :=
  match i with
  | .request r => serve r s
  | .reset => .next s.resetEvent

/-- The input the block takes next: the oldest one; with none the block does nothing (spec/60_exceptions.md R177). -/
def takeInput (s : State) : Host.Outcome State Fault Refusal :=
  match s.inputs with
  | [] => .next s
  | i :: rest => accept i { s with inputs := rest }

/-- The request that runs a command word given as a number: `WR CMD` with the low `nbits` bits of w
(spec/30_encoding.md R73). -/
def commandRequest (nbits w : Nat) : Input := .request (.wr Register.cmd.offset (BitVec.ofNat 64 (w % 2 ^ nbits)))

/-- The state with inputs issued by the host after those already waiting. -/
def State.issue (s : State) (l : List Input) : State := { s with inputs := s.inputs ++ l }

end Sys2Proof.Machine
end

