-- ==== Sys2Proof/Machine/Step.lean ====
section
/-! DEFINITION. One step of the block: it takes the oldest input that waits at its ports, whole (spec/10_state.md R12,
spec/20_memory.md R52). Nothing is fetched from a memory (spec/10_state.md R13): a command is the value of one `WR CMD`. -/

namespace Sys2Proof.Machine

/-- One step. -/
def step (s : State) : Host.Outcome State Fault Refusal := takeInput s

/-- The state in which the next input is the request `WR CMD` with the command word w (log 2). -/
def State.withFetchWord (s : State) (nbits w : Nat) : State := { s with inputs := commandRequest nbits w :: s.inputs }

end Sys2Proof.Machine
end

