-- ==== Sys2Proof/Machine/Pseudo.lean ====
section
/-! DEFINITION. The request syntax of spec/30_encoding.md R73: each line and each pseudo-request as the list of host
requests it stands for. -/

namespace Sys2Proof.Machine

/-- An integer as the data of a request, for -2^63 <= v < 2^63. -/
def wdata (v : Int) : WData := BitVec.ofInt 64 v

/-- `wr REG, v` (R73). -/
def wrReg (r : Register) (v : Int) : Request := .wr r.offset (wdata v)

/-- `rd REG` (R73). -/
def rdReg (r : Register) : Request := .rd r.offset

/-- `wrb BUF[a..], hex` (R73): one `WRB` per byte, at a, a + 1, ... -/
def wrbBytes (sp : Space) (a : Nat) (B : List Byte) : List Request :=
  match B with
  | [] => []
  | b :: rest => .wrb sp.id (wdata a) (wdata b.toNat) :: wrbBytes sp (a + 1) rest

/-- `cmd MNEMONIC` and `cmd MNEMONIC imm` (R73). -/
def cmdOf (i : Instr) : Request := wrReg .cmd (encode i).toNat

/-- `bs.put mask, v` (R73): the document's `set(mask, value)`. -/
def bsPut (mask : Half) (v : Bool) : List Request := [cmdOf (if v then .bsSet mask else .bsClr mask)]

/-- `flags NAME NAME ...` (R73): m is the sum of the named flags' masks. -/
def flagsOf (names : List ControlFlag) : List Request :=
  [cmdOf (.flgPack ((names.foldl (fun v x => v ||| x.mask) 0#9).setWidth 16))]

/-- `opt.eol` (R73). -/
def optEol : List Request := [wrReg .owKind 0, wrReg .owVlen 0, cmdOf .optPush]

/-- `opt.nop` (R73). -/
def optNop : List Request := [wrReg .owKind 1, wrReg .owVlen 0, cmdOf .optPush]

/-- The writes `wr OW_W[j], vj` of `opt.words`, from word j on; there are ten words. -/
def owWords (j : Nat) (vs : List Word) : List Request :=
  match vs with
  | [] => []
  | v :: rest => wrReg (.owW (Fin.ofNat 10 j)) v.toNat :: owWords (j + 1) rest

/-- `opt.words k, v0, ..., v(n-1)` for n <= 9 (R73): the document's `Sized(kind, values)`. -/
def optWords (k : Byte) (vs : List Word) : List Request :=
  [wrReg .owKind k.toNat, wrReg .owVlen (4 * vs.length)] ++ owWords 0 vs ++ [cmdOf .optPush]

/-- `opt.ts v0, v1` (R73): the document's `Timestamps`. -/
def optTs (v0 v1 : Word) : List Request := optWords 8#8 [v0, v1]

/-- `opt.bytes k, hex` (R73). -/
def optBytes (k : Byte) (B : List Byte) : List Request :=
  [wrReg .owKind k.toNat, wrReg .owVlen B.length] ++ wrbBytes .owval 0 B ++ [cmdOf .optPush]

/-- `ll.attach src, dst, proto` (R73). -/
def llAttach (src dst : Word) (proto : Byte) : List Request :=
  [wrReg .llFamily 4, wrReg .llSrc src.toNat, wrReg .llDst dst.toNat, wrReg .llProto proto.toNat, wrReg .llAttached 1]

/-- `ll.detach` (R73). -/
def llDetach : List Request := [wrReg .llAttached 0]

end Sys2Proof.Machine
end

