-- ==== Sys2Proof/Safety.lean ====
section
/-! DEFINITION. What a good state is, in the terms the statements use; when two descriptors are equal; and runs. -/

namespace Sys2Proof.Machine

/-- The states the spec allows (the legal values of spec/10_state.md R14 to R22, OPTS-OK of R20, the cause codes of
spec/60_exceptions.md R170, the constraint on the parameters of spec/00_scope.md R3), and the canonical form of the four
buffers. -/
structure State.Ok (s : State) : Prop where
  params : s.params.Ok
  status : ∃ c : Cause, s.status = c.code
  paylen : s.paylen.toNat ≤ 65527
  seglen : s.seglen.toNat ≤ 65547
  optlen : s.optlen.toNat ≤ 40
  opts : OptsOk s.opts
  segbuf : s.segbuf.wf Space.segbuf.capacity
  paybuf : s.paybuf.wf Space.paybuf.capacity
  optbuf : s.optbuf.wf Space.optbuf.capacity
  owval : s.owval.wf Space.owval.capacity

/-- The lower-layer references of two descriptors are equal: both absent, or both attached and equal by value
(spec/10_state.md R26). -/
abbrev SameLowerLayer (s t : State) : Prop :=
  (s.llAttached = 0#1 ∧ t.llAttached = 0#1) ∨
  (s.llAttached = 1#1 ∧ t.llAttached = 1#1 ∧ s.llFamily = t.llFamily ∧ s.llSrc = t.llSrc ∧ s.llDst = t.llDst ∧
    s.llProto = t.llProto)

/-- The payloads of two descriptors are equal: the same PAYLEN and the same bytes below it (spec/10_state.md R26). A byte
never written has no value, so it equals nothing (log 12). -/
abbrev SamePayload (s t : State) : Prop :=
  s.paylen = t.paylen ∧
  ∀ a < s.paylen.toNat, ∃ b, Memory.lookup s.paybuf a = some b ∧ Memory.lookup t.paybuf a = some b

/-- Two descriptor states are equal in every field but the lower-layer reference (spec/10_state.md R26). -/
abbrev SameFields (s t : State) : Prop :=
  s.sport = t.sport ∧ s.dport = t.dport ∧ s.seq = t.seq ∧ s.ack = t.ack ∧ s.flags = t.flags ∧ s.win = t.win ∧
  s.urg = t.urg ∧ s.opts = t.opts ∧ SamePayload s t

/-- Equality of descriptors (spec/10_state.md R26). -/
abbrev SameDescriptor (s t : State) : Prop := SameFields s t ∧ SameLowerLayer s t

/-- Every byte of a buffer below n has been written since reset (spec/70_reset_and_hazards.md R200). -/
abbrev Written (m : Memory) (n : Nat) : Prop := ∀ a < n, (Memory.lookup m a).isSome

/-- A run (spec/70_reset_and_hazards.md R205): the requests are served one after the other, each on the state the one
before it left; a stop ends the run. -/
def runRequests (s : State) (l : List Request) : Host.Outcome State Fault Refusal :=
  match l with
  | [] => .next s
  | r :: rest =>
    match serve r s with
    | .next t => runRequests t rest
    | .fault f => .fault f
    | .refused f => .refused f

/-! ### The terms of the statements, written out from the spec's tables -/

/-- The state after a host write that ended with a status code and changed nothing else (spec/60_exceptions.md R173, R174);
`draw` is the model's own (log 3). -/
def State.ended (s : State) (code : BitVec 8) : State := { s with status := code, draw := s.draw + 1 }

/-- The state after a read that returned a value (spec/20_memory.md R45, R46): the value goes to the host. -/
def State.told (s : State) (r : Reply) : State := { s with returned := s.returned ++ [r], draw := s.draw + 1 }

/-- The offsets of spec/20_memory.md R41. -/
def mappedOffsets : List Nat :=
  [0x000, 0x004, 0x008, 0x00C, 0x010, 0x020, 0x024, 0x028, 0x02C, 0x030, 0x034, 0x038, 0x040, 0x044, 0x048, 0x04C, 0x050,
   0x060, 0x064, 0x068, 0x06C, 0x080, 0x084, 0x0C0, 0x0C4, 0x0C8, 0x0CC, 0x0D0, 0x0D4, 0x0D8, 0x0DC, 0x0E0, 0x0E4]

/-- The offsets of STATUS, TST, CSUMRES, BS, FLAGS and OPTCNT (spec/20_memory.md R44). -/
def readOnlyOffsets : List Nat := [0x004, 0x008, 0x00C, 0x010, 0x030, 0x06C]

/-- The space ids and capacities of spec/10_state.md R22. -/
def spaceTable : List (Nat × Space × Int) :=
  [(0, .segbuf, 65547), (1, .paybuf, 65527), (2, .optbuf, 40), (3, .owval, 40)]

/-- The codes of spec/60_exceptions.md R170. -/
def statusCodes : List (BitVec 8) :=
  [0x00#8, 0x11#8, 0x12#8, 0x13#8, 0x14#8, 0x15#8, 0x21#8, 0x22#8, 0x23#8, 0x24#8, 0x31#8, 0x32#8, 0x41#8, 0x42#8, 0x51#8,
   0x71#8, 0x72#8, 0x73#8]

/-- The codes a command can end with (spec/60_exceptions.md R171, R176). -/
def commandCodes : Instr → List (BitVec 8)
  | .bsNew => [0x00#8]
  | .bsSet _ => [0x00#8]
  | .bsClr _ => [0x00#8]
  | .bsTst _ => [0x00#8]
  | .flgFromint _ => [0x00#8]
  | .flgPack _ => [0x00#8]
  | .optClr => [0x00#8]
  | .optPush => [0x00#8, 0x14#8, 0x15#8]
  | .optGet _ => [0x00#8, 0x13#8]
  | .optEnc => [0x00#8]
  | .optDec => [0x00#8, 0x31#8, 0x32#8]
  | .csum => [0x00#8]
  | .segEnc => [0x00#8, 0x41#8, 0x42#8, 0x51#8]
  | .segDec => [0x00#8, 0x21#8, 0x22#8, 0x23#8, 0x24#8, 0x31#8, 0x32#8]

/-- The opcodes of spec/30_encoding.md R61. -/
def commandOpcodes : List Byte :=
  [0x10#8, 0x11#8, 0x12#8, 0x13#8, 0x20#8, 0x21#8, 0x30#8, 0x31#8, 0x32#8, 0x33#8, 0x34#8, 0x40#8, 0x50#8, 0x51#8]

/-- The opcodes of the commands whose IMM must be 0 (spec/30_encoding.md R61). -/
def noOperandOpcodes : List Byte := [0x10#8, 0x30#8, 0x31#8, 0x33#8, 0x34#8, 0x40#8, 0x50#8, 0x51#8]

/-- B is what reading the first n bytes of a buffer can give: every byte written there as it was written, every other byte
any value (spec/10_state.md R24). -/
def Shows (m : Memory) (n : Nat) (B : List Byte) : Prop :=
  B.length = n ∧ ∀ a b, a < n → Memory.lookup m a = some b → B[a]? = some b

/-- The length of the segment SEG.ENC would write (spec/45_segment.md R147). -/
def State.serializedLength (s : State) : Nat := 20 + (optsEncode s.params.pad s.opts).length + s.paylen.toNat

/-- What SEG.ENC needs (spec/45_segment.md R155): a lower-layer reference of family 4 and a length the external validator
accepts. -/
abbrev State.CanSerialize (s : State) : Prop :=
  s.llAttached = 1#1 ∧ s.llFamily = 4#8 ∧ s.params.minSegLen ≤ s.serializedLength ∧
  s.serializedLength ≤ s.params.maxSegLen

/-- The list holds no EndOfList record. -/
abbrev NoEol (l : List OptRecord) : Prop := ∀ r ∈ l, r.kind ≠ 0#8

end Sys2Proof.Machine
end

