-- ==== Sys2Proof/Certificates/Slice0/Obligations.lean ====
section
/-! DEFINITION. The statements for the provers, from the numbered rules of spec/. -/

open Sys2Proof Sys2Proof.Machine

/-! ### Command words -/

/-- spec/30_encoding.md R60 to R63: decoding the word of a well-formed command gives the command back, operand and all. -/
def Obligations.DecodeEncodeRoundTrip : Prop :=
  ∀ i : Instr, i.wf = true → decode (encode i) = .ok i

/-- spec/30_encoding.md R60 to R63: a word that decodes is the word of the well-formed command it decodes to, so every
command has one word and every word at most one command. -/
def Obligations.EncodeDecodeRoundTrip : Prop :=
  ∀ (w : Word) (i : Instr), decode w = .ok i → i.wf = true ∧ encode i = w

/-- spec/30_encoding.md R63, on every 32-bit word written to CMD: the tests in their order with their codes, and otherwise
the command whose word it is runs. -/
def Obligations.CommandWordTests : Prop :=
  ∀ (w : Word) (s : State),
    let run := serve (.wr 0x000 (w.setWidth 64)) s
    let opc := w.extractLsb' 24 8
    let rsv := w.extractLsb' 16 8
    let imm := w.extractLsb' 0 16
    (opc ∉ commandOpcodes → run = .next (s.ended 0x71#8)) ∧
    (opc ∈ commandOpcodes → rsv ≠ 0#8 → run = .next (s.ended 0x72#8)) ∧
    (opc ∈ noOperandOpcodes → rsv = 0#8 → imm ≠ 0#16 → run = .next (s.ended 0x72#8)) ∧
    (opc = 0x21#8 → rsv = 0#8 → imm.extractLsb' 9 7 ≠ 0#7 → run = .next (s.ended 0x72#8)) ∧
    (opc ∈ commandOpcodes → rsv = 0#8 → (opc ∈ noOperandOpcodes → imm = 0#16) →
      (opc = 0x21#8 → imm.extractLsb' 9 7 = 0#7) → ∃ i : Instr, i.wf = true ∧ encode i = w ∧ run = exec i s)

/-- spec/30_encoding.md R61: a word is a command exactly when it matches the command's row, the bits outside the mask are
the operand, and an opcode outside the map is unknown. -/
def Obligations.OpcodeMapRows : Prop :=
  ∀ w : Word,
    let imm := w.extractLsb' 0 16
    (w &&& 0xFFFFFFFF#32 = 0x10000000#32 ↔ decode w = .ok .bsNew) ∧
    (w &&& 0xFFFF0000#32 = 0x11000000#32 ↔ decode w = .ok (.bsSet imm)) ∧
    (w &&& 0xFFFF0000#32 = 0x12000000#32 ↔ decode w = .ok (.bsClr imm)) ∧
    (w &&& 0xFFFF0000#32 = 0x13000000#32 ↔ decode w = .ok (.bsTst imm)) ∧
    (w &&& 0xFFFF0000#32 = 0x20000000#32 ↔ decode w = .ok (.flgFromint imm)) ∧
    (w &&& 0xFFFFFE00#32 = 0x21000000#32 ↔ decode w = .ok (.flgPack imm)) ∧
    (w &&& 0xFFFFFFFF#32 = 0x30000000#32 ↔ decode w = .ok .optClr) ∧
    (w &&& 0xFFFFFFFF#32 = 0x31000000#32 ↔ decode w = .ok .optPush) ∧
    (w &&& 0xFFFF0000#32 = 0x32000000#32 ↔ decode w = .ok (.optGet imm)) ∧
    (w &&& 0xFFFFFFFF#32 = 0x33000000#32 ↔ decode w = .ok .optEnc) ∧
    (w &&& 0xFFFFFFFF#32 = 0x34000000#32 ↔ decode w = .ok .optDec) ∧
    (w &&& 0xFFFFFFFF#32 = 0x40000000#32 ↔ decode w = .ok .csum) ∧
    (w &&& 0xFFFFFFFF#32 = 0x50000000#32 ↔ decode w = .ok .segEnc) ∧
    (w &&& 0xFFFFFFFF#32 = 0x51000000#32 ↔ decode w = .ok .segDec) ∧
    (w.extractLsb' 24 8 ∉ commandOpcodes ↔ decode w = .error .unknownOpcode)

/-- spec/95_test_vectors.md section 2.1, 2.2 and program P2: words written out there decode to their commands. -/
def Obligations.WrittenOutWordsDecode : Prop :=
  decode 0x10000000#32 = .ok .bsNew ∧ decode 0x11000010#32 = .ok (.bsSet 0x0010#16) ∧
  decode 0x13000012#32 = .ok (.bsTst 0x0012#16) ∧ decode 0x1200FFFF#32 = .ok (.bsClr 0xFFFF#16) ∧
  decode 0x20008010#32 = .ok (.flgFromint 0x8010#16) ∧ decode 0x210001FF#32 = .ok (.flgPack 0x01FF#16) ∧
  decode 0x32000002#32 = .ok (.optGet 2#16) ∧ decode 0x40000000#32 = .ok .csum ∧
  decode 0x51000000#32 = .ok .segDec ∧ decode 0x2100FE00#32 = .error .packBits ∧
  decode 0x00010000#32 = .error .unknownOpcode ∧ decode 0x10010000#32 = .error .reservedBits ∧
  decode 0x50000001#32 = .error .operandBits

/-! ### Requests and steps -/

/-- spec/20_memory.md R44, R52: a step whose next input is `WR CMD` of a word that decodes is the command run on the state
with that input taken; the same through `withFetchWord` (log 2). -/
def Obligations.StepRunsDecodedCommand : Prop :=
  (∀ (s : State) (v : WData) (rest : List Input) (i : Instr),
    s.inputs = .request (.wr 0x000 v) :: rest → 0 ≤ v.toInt → v.toInt ≤ 4294967295 →
    decode (BitVec.ofInt 32 v.toInt) = .ok i → step s = exec i { s with inputs := rest }) ∧
  (∀ (s : State) (i : Instr), i.wf = true → step (s.withFetchWord 32 (encode i).toNat) = exec i s)

/-- spec/20_memory.md R52, spec/60_exceptions.md R177: requests are served in the order issued, one a step, and without one
nothing happens (log 2, log 8). -/
def Obligations.RequestsServedInOrder : Prop :=
  (∀ s : State, s.inputs = [] → step s = .next s) ∧
  (∀ (s : State) (r : Request) (rest : List Input), s.inputs = .request r :: rest →
    step s = serve r { s with inputs := rest }) ∧
  (∀ s t : State, step s = .next t → t.inputs = s.inputs.tail)

/-- spec/20_memory.md R44: a CMD value outside 32 bits, and writes to read-only registers and unmapped offsets. -/
def Obligations.CommandAndRefusedWrites : Prop :=
  ∀ (s : State) (v : WData),
    (v.toInt < 0 ∨ 4294967295 < v.toInt → serve (.wr 0x000 v) s = .next (s.ended 0x12#8)) ∧
    (0 ≤ v.toInt → v.toInt ≤ 4294967295 → ∀ i, decode (BitVec.ofInt 32 v.toInt) = .ok i →
      serve (.wr 0x000 v) s = exec i s) ∧
    (0 ≤ v.toInt → v.toInt ≤ 4294967295 → ∀ e, decode (BitVec.ofInt 32 v.toInt) = .error e →
      serve (.wr 0x000 v) s = .next (s.ended (if e = .unknownOpcode then 0x71#8 else 0x72#8))) ∧
    (∀ off, off ∈ readOnlyOffsets ∨ off ∉ mappedOffsets → serve (.wr off v) s = .next (s.ended 0x73#8))

/-- spec/20_memory.md R43: the checked registers, each with its range, its cause code and what a write in range stores. -/
def Obligations.CheckedRegisterWrites : Prop :=
  ∀ (s : State) (v : WData),
    let n := v.toInt
    let write := fun (off : Nat) (top : Int) (code : BitVec 8) (t : State) =>
      serve (.wr off v) s = if n < 0 ∨ top < n then .next (s.ended code) else .next (t.ended 0x00#8)
    write 0x020 65535 0x11#8 { s with sport := BitVec.ofInt 16 n } ∧
    write 0x024 65535 0x11#8 { s with dport := BitVec.ofInt 16 n } ∧
    write 0x028 4294967295 0x12#8 { s with seq := BitVec.ofInt 32 n } ∧
    write 0x02C 4294967295 0x12#8 { s with ack := BitVec.ofInt 32 n } ∧
    write 0x034 65535 0x12#8 { s with win := BitVec.ofInt 16 n } ∧
    write 0x038 65535 0x12#8 { s with urg := BitVec.ofInt 16 n } ∧
    write 0x040 1 0x12#8 { s with llAttached := BitVec.ofInt 1 n } ∧
    write 0x044 255 0x12#8 { s with llFamily := BitVec.ofInt 8 n } ∧
    write 0x048 4294967295 0x12#8 { s with llSrc := BitVec.ofInt 32 n } ∧
    write 0x04C 4294967295 0x12#8 { s with llDst := BitVec.ofInt 32 n } ∧
    write 0x050 255 0x12#8 { s with llProto := BitVec.ofInt 8 n } ∧
    write 0x060 65527 0x13#8 { s with paylen := BitVec.ofInt 16 n } ∧
    write 0x064 65547 0x13#8 { s with seglen := BitVec.ofInt 17 n } ∧
    write 0x068 40 0x13#8 { s with optlen := BitVec.ofInt 6 n } ∧
    write 0x080 255 0x12#8 { s with owKind := BitVec.ofInt 8 n } ∧
    write 0x084 255 0x12#8 { s with owVlen := BitVec.ofInt 8 n } ∧
    (∀ j : Fin 10, write (0x0C0 + 4 * j.val) 4294967295 0x12#8
      (s.memWrite .owval (4 * j.val) (be32 (BitVec.ofInt 32 n))))

/-- spec/10_state.md R23, spec/20_memory.md R50: OW_W[j] is the four bytes of OWVAL at 4j, most significant first, in both
directions, and a write through it changes no other byte. -/
def Obligations.WindowWordsAliasBytes : Prop :=
  ∀ (s : State) (j : Fin 10),
    (∀ v : Word, ∃ t : State, serve (.wr (0x0C0 + 4 * j.val) (v.setWidth 64)) s = .next t ∧
      Memory.lookup t.owval (4 * j.val) = some (v.extractLsb' 24 8) ∧
      Memory.lookup t.owval (4 * j.val + 1) = some (v.extractLsb' 16 8) ∧
      Memory.lookup t.owval (4 * j.val + 2) = some (v.extractLsb' 8 8) ∧
      Memory.lookup t.owval (4 * j.val + 3) = some (v.extractLsb' 0 8) ∧
      (∀ a, a < 4 * j.val ∨ 4 * j.val + 4 ≤ a → Memory.lookup t.owval a = Memory.lookup s.owval a) ∧
      t = ({ s with owval := t.owval } : State).ended 0x00#8 ∧
      serve (.rd (0x0C0 + 4 * j.val)) t = .next (t.told (.reg v))) ∧
    (∀ b0 b1 b2 b3 : Byte, Memory.lookup s.owval (4 * j.val) = some b0 →
      Memory.lookup s.owval (4 * j.val + 1) = some b1 → Memory.lookup s.owval (4 * j.val + 2) = some b2 →
      Memory.lookup s.owval (4 * j.val + 3) = some b3 →
      serve (.rd (0x0C0 + 4 * j.val)) s = .next (s.told (.reg (b0 ++ b1 ++ b2 ++ b3))))

/-- spec/20_memory.md R45: RD returns the register's value, or any value for an unmapped offset, and changes no state. -/
def Obligations.RegisterReads : Prop :=
  ∀ s : State,
    let reads := fun (off : Nat) (v : Word) => serve (.rd off) s = .next (s.told (.reg v))
    reads 0x000 0#32 ∧ reads 0x004 (s.status.setWidth 32) ∧ reads 0x008 (s.tst.setWidth 32) ∧
    reads 0x00C (s.csumres.setWidth 32) ∧ reads 0x010 (s.bs.setWidth 32) ∧ reads 0x020 (s.sport.setWidth 32) ∧
    reads 0x024 (s.dport.setWidth 32) ∧ reads 0x028 s.seq ∧ reads 0x02C s.ack ∧ reads 0x030 (s.flags.setWidth 32) ∧
    reads 0x034 (s.win.setWidth 32) ∧ reads 0x038 (s.urg.setWidth 32) ∧ reads 0x040 (s.llAttached.setWidth 32) ∧
    reads 0x044 (s.llFamily.setWidth 32) ∧ reads 0x048 s.llSrc ∧ reads 0x04C s.llDst ∧
    reads 0x050 (s.llProto.setWidth 32) ∧ reads 0x060 (s.paylen.setWidth 32) ∧ reads 0x064 (s.seglen.setWidth 32) ∧
    reads 0x068 (s.optlen.setWidth 32) ∧ (OptsOk s.opts → reads 0x06C (BitVec.ofNat 32 s.opts.length)) ∧
    reads 0x080 (s.owKind.setWidth 32) ∧ reads 0x084 (s.owVlen.setWidth 32) ∧
    (∀ (j : Fin 10) (B : List Byte), (∀ i, i < 4 → Memory.lookup s.owval (4 * j.val + i) = B[i]?) → B.length = 4 →
      reads (0x0C0 + 4 * j.val) (u32be B 0)) ∧
    (∀ off, ∃ v, reads off v)

/-- spec/20_memory.md R42, R47: WRB tests the space, then the address and the byte, and stores one byte. -/
def Obligations.BufferByteWrites : Prop :=
  ∀ (s : State) (addr b : WData),
    (∀ id, 4 ≤ id → serve (.wrb id addr b) s = .next (s.ended 0x73#8)) ∧
    (∀ row ∈ spaceTable,
      (addr.toInt < 0 ∨ row.2.2 ≤ addr.toInt ∨ b.toInt < 0 ∨ 255 < b.toInt →
        serve (.wrb row.1 addr b) s = .next (s.ended 0x13#8)) ∧
      (0 ≤ addr.toInt → addr.toInt < row.2.2 → 0 ≤ b.toInt → b.toInt ≤ 255 →
        ∃ t : State, serve (.wrb row.1 addr b) s = .next t ∧
          Memory.lookup (t.buf row.2.1) addr.toInt.toNat = some (BitVec.ofInt 8 b.toInt) ∧
          (∀ a, a ≠ addr.toInt.toNat → Memory.lookup (t.buf row.2.1) a = Memory.lookup (s.buf row.2.1) a) ∧
          (∀ sp, sp ≠ row.2.1 → t.buf sp = s.buf sp) ∧ t = (s.setBuf row.2.1 (t.buf row.2.1)).ended 0x00#8))

/-- spec/20_memory.md R42, R46: RDB returns the byte last written, or any byte, and changes no state. -/
def Obligations.BufferByteReads : Prop :=
  ∀ (s : State) (addr : WData),
    (∀ id, ∃ b, serve (.rdb id addr) s = .next (s.told (.byte b))) ∧
    (∀ row ∈ spaceTable, 0 ≤ addr.toInt → addr.toInt < row.2.2 →
      ∀ b, Memory.lookup (s.buf row.2.1) addr.toInt.toNat = some b →
        serve (.rdb row.1 addr) s = .next (s.told (.byte b)))

/-- spec/20_memory.md R46, R47: `MemWrite` stores its bytes and changes no other byte, no other buffer and no register, and
`MemRead` then returns them. -/
def Obligations.MemWriteStoresItsBytes : Prop :=
  ∀ (s : State) (sp : Space) (a : Nat) (B : List Byte),
    (∀ i, i < B.length → Memory.lookup ((s.memWrite sp a B).buf sp) (a + i) = B[i]?) ∧
    (∀ x, x < a ∨ a + B.length ≤ x → Memory.lookup ((s.memWrite sp a B).buf sp) x = Memory.lookup (s.buf sp) x) ∧
    (∀ sq, sq ≠ sp → (s.memWrite sp a B).buf sq = s.buf sq) ∧
    s.memWrite sp a B = s.setBuf sp ((s.memWrite sp a B).buf sp) ∧
    (s.memWrite sp a B).memRead sp a B.length = B

/-! ### Reset -/

/-- spec/10_state.md R27, spec/70_reset_and_hazards.md R191: the reset value of every register, the empty list, and no byte
of a buffer written. -/
def Obligations.ResetValues : Prop :=
  ∀ p : Params, ∀ s : State, s = State.resetOf p →
    s.status = 0x00#8 ∧ s.tst = 0#1 ∧ s.csumres = 0#16 ∧ s.bs = 0x0000#16 ∧ s.sport = 0#16 ∧ s.dport = 0#16 ∧
    s.seq = 0#32 ∧ s.ack = 0#32 ∧ s.flags = 0x000#9 ∧ s.win = 0#16 ∧ s.urg = 0#16 ∧ s.llAttached = 0#1 ∧
    s.llFamily = 0#8 ∧ s.llSrc = 0#32 ∧ s.llDst = 0#32 ∧ s.llProto = 0#8 ∧ s.paylen = 0#16 ∧ s.seglen = 0#17 ∧
    s.optlen = 0#6 ∧ s.optcnt = 0#6 ∧ s.opts = [] ∧ s.owKind = 0#8 ∧ s.owVlen = 0#8 ∧ s.readReg .cmd = 0#32 ∧
    ∀ sp a, Memory.lookup (s.buf sp) a = none

/-- spec/70_reset_and_hazards.md R190: a reset between two requests puts every piece of the block's state into its reset
value. What the host has issued and received, the parameters and the count of requests are the model's (log 9). -/
def Obligations.ResetEvent : Prop :=
  ∀ (s : State) (rest : List Input), s.inputs = .reset :: rest →
    step s = .next { State.resetOf s.params with inputs := rest, returned := s.returned, draw := s.draw + 1 }

/-- spec/70_reset_and_hazards.md R192: what the reset state does when used as it stands, whatever the parameters. -/
def Obligations.ResetStateCommands : Prop :=
  ∀ p : Params, ∀ s : State, s = State.resetOf p →
    exec .segEnc s = .next (s.ended 0x41#8) ∧
    exec .segDec s = .next (s.ended 0x21#8) ∧
    exec .csum s = .next (({ s with csumres := 0xFFFF#16 } : State).ended 0x00#8) ∧
    exec .optEnc s = .next (s.ended 0x00#8) ∧
    exec .optDec s = .next (s.ended 0x00#8) ∧
    exec .optPush s = .next (({ s with opts := [⟨0#8, []⟩] } : State).ended 0x00#8) ∧
    exec (.optGet 0#16) s = .next (s.ended 0x13#8) ∧
    exec (.bsTst 1#16) s = .next (s.ended 0x00#8)

/-! ### Errors, invariants and frames of the whole machine -/

/-- spec/60_exceptions.md R173: a host write that ends with a cause code has changed nothing but STATUS. -/
def Obligations.ErrorsChangeOnlyStatus : Prop :=
  ∀ s t : State, t.status ≠ 0x00#8 →
    (∀ off v, serve (.wr off v) s = .next t → t = s.ended t.status) ∧
    (∀ id addr b, serve (.wrb id addr b) s = .next t → t = s.ended t.status)

/-- spec/60_exceptions.md R170, R174: every host write leaves one of the listed codes in STATUS; a read leaves STATUS. -/
def Obligations.StatusAfterEveryRequest : Prop :=
  ∀ s t : State,
    (∀ off v, serve (.wr off v) s = .next t → t.status ∈ statusCodes) ∧
    (∀ id addr b, serve (.wrb id addr b) s = .next t → t.status ∈ statusCodes) ∧
    (∀ off, serve (.rd off) s = .next t → t.status = s.status) ∧
    (∀ id addr, serve (.rdb id addr) s = .next t → t.status = s.status)

/-- spec/60_exceptions.md R171, R176: which codes each command can end with. -/
def Obligations.CodesOfEachCommand : Prop :=
  ∀ (i : Instr) (s t : State), exec i s = .next t → t.status ∈ commandCodes i

/-- The legal values of spec/10_state.md, OPTS-OK (R20), the codes of STATUS and the canonical form of the buffers hold
after every step from a state in which they hold. -/
def Obligations.StepKeepsOk : Prop :=
  ∀ s t : State, s.Ok → step s = .next t → t.Ok

/-- The invariant of `StepKeepsOk` holds at reset, for every admissible choice of the parameters. -/
def Obligations.ResetIsOk : Prop :=
  State.reset.Ok ∧ ∀ p : Params, p.Ok → (State.resetOf p).Ok

/-- spec/60_exceptions.md R181: the block never stops; every step from a state the spec allows answers a next state. -/
def Obligations.OkStateNeverStops : Prop :=
  ∀ s : State, s.Ok → ∃ t : State, step s = .next t

/-- spec/70_reset_and_hazards.md R203: the parameters never change (log 1). -/
def Obligations.ParametersAreConstant : Prop :=
  ∀ s t : State, step s = .next t → t.params = s.params

/-- spec/10_state.md R14 to R22, columns "written by": which commands can change each register, the option list and each
buffer; the rest of the state no command changes. -/
def Obligations.WritersOfEachRegister : Prop :=
  ∀ (i : Instr) (s t : State), exec i s = .next t →
    (t.tst ≠ s.tst → ∃ m, i = .bsTst m) ∧
    (t.csumres ≠ s.csumres → i = .csum) ∧
    (t.bs ≠ s.bs → i = .bsNew ∨ (∃ m, i = .bsSet m) ∨ ∃ m, i = .bsClr m) ∧
    (t.flags ≠ s.flags → (∃ n, i = .flgFromint n) ∨ (∃ b, i = .flgPack b) ∨ i = .segDec) ∧
    (t.sport ≠ s.sport ∨ t.dport ≠ s.dport ∨ t.seq ≠ s.seq ∨ t.ack ≠ s.ack ∨ t.win ≠ s.win ∨ t.urg ≠ s.urg →
      i = .segDec) ∧
    (t.llAttached ≠ s.llAttached → i = .segDec ∧ t.llAttached = 0#1) ∧
    t.llFamily = s.llFamily ∧ t.llSrc = s.llSrc ∧ t.llDst = s.llDst ∧ t.llProto = s.llProto ∧
    (t.paylen ≠ s.paylen ∨ t.paybuf ≠ s.paybuf → i = .segDec) ∧
    (t.seglen ≠ s.seglen ∨ t.segbuf ≠ s.segbuf → i = .segEnc) ∧
    (t.optlen ≠ s.optlen ∨ t.optbuf ≠ s.optbuf → i = .optEnc) ∧
    (t.opts ≠ s.opts → i = .optClr ∨ i = .optPush ∨ i = .optDec ∨ i = .segDec) ∧
    (t.owKind ≠ s.owKind ∨ t.owVlen ≠ s.owVlen ∨ t.owval ≠ s.owval → ∃ k, i = .optGet k) ∧
    t.params = s.params ∧ t.inputs = s.inputs ∧ t.returned = s.returned ∧ t.draw = s.draw + 1

/-! ### The bit-flag container and the control-flag set -/

/-- spec/41_bitset.md R90, R91, R92: the words of BS.NEW, BS.SET and BS.CLR and the value of BS after them; nothing else
changes and STATUS is 0x00. -/
def Obligations.BitsetCommands : Prop :=
  ∀ (s : State) (mask : Half),
    encode .bsNew = 0x10000000#32 ∧ encode (.bsSet mask) = 0x11000000#32 ||| mask.setWidth 32 ∧
    encode (.bsClr mask) = 0x12000000#32 ||| mask.setWidth 32 ∧
    exec .bsNew s = .next (({ s with bs := 0#16 } : State).ended 0x00#8) ∧
    exec (.bsSet mask) s = .next (({ s with bs := s.bs ||| mask } : State).ended 0x00#8) ∧
    exec (.bsClr mask) s = .next (({ s with bs := s.bs &&& ~~~mask } : State).ended 0x00#8)

/-- spec/41_bitset.md R93: the word of BS.TST, its answer for a single-bit mask, and for every other mask under either
value of ISSET_MULTI; nothing but TST and STATUS changes. -/
def Obligations.BitsetTest : Prop :=
  ∀ s : State,
    let answers := fun (m : Half) (a : Bool) =>
      exec (.bsTst m) s = .next (({ s with tst := BitVec.ofBool a } : State).ended 0x00#8)
    (∀ m : Half, encode (.bsTst m) = 0x13000000#32 ||| m.setWidth 32) ∧
    (∀ k, k < 16 → answers (BitVec.twoPow 16 k) (s.bs.getLsbD k)) ∧
    (∀ m : Half, (∀ k, k < 16 → m ≠ BitVec.twoPow 16 k) → s.params.issetMulti = .all →
      answers m (decide (s.bs &&& m = m))) ∧
    (∀ m : Half, (∀ k, k < 16 → m ≠ BitVec.twoPow 16 k) → s.params.issetMulti = .any →
      answers m (decide (s.bs &&& m ≠ 0#16)))

/-- spec/41_bitset.md R94: the laws of the container, for either value of ISSET_MULTI. -/
def Obligations.BitsetLaws : Prop :=
  ∀ (v m n : Half) (multi : IssetMulti),
    bitsSet v m &&& ~~~m = v &&& ~~~m ∧
    bitsClr v m &&& ~~~m = v &&& ~~~m ∧
    (m ≠ 0#16 ∨ multi = .all → bitsTst multi (bitsSet v m) m = true) ∧
    (m ≠ 0#16 → bitsTst multi (bitsClr v m) m = false) ∧
    bitsSet (bitsSet v m) n = bitsSet (bitsSet v n) m ∧
    (m &&& n = 0#16 → bitsClr (bitsSet v m) n = bitsSet (bitsClr v n) m) ∧
    bitsSet (bitsSet v m) m = bitsSet v m ∧
    bitsClr (bitsClr v m) m = bitsClr v m

/-- spec/42_flags.md R101, R102: the words of the two constructing commands and FLAGS after them; nothing else changes and
STATUS is 0x00; `flags_from_int` on every integer. -/
def Obligations.FlagConstructors : Prop :=
  (∀ (s : State) (n : Half), encode (.flgFromint n) = 0x20000000#32 ||| n.setWidth 32 ∧
    exec (.flgFromint n) s = .next (({ s with flags := n.extractLsb' 0 9 } : State).ended 0x00#8)) ∧
  (∀ (s : State) (b : Half), b.toNat < 512 → encode (.flgPack b) = 0x21000000#32 ||| b.setWidth 32 ∧
    exec (.flgPack b) s = .next (({ s with flags := BitVec.ofNat 9 b.toNat } : State).ended 0x00#8)) ∧
  (∀ n : Int, ((flagsFromInt n).toNat : Int) = n % 512)

/-- spec/42_flags.md R106: the laws of the constructors. -/
def Obligations.FlagConstructorLaws : Prop :=
  (∀ n : Int, flagsFromInt n = flagsFromInt (n % 512)) ∧
  (∀ f : BitVec 9, flagsFromInt f.toNat = f) ∧
  (∀ (s : State) (b : Half), b.toNat < 512 → exec (.flgPack b) s = exec (.flgFromint b) s) ∧
  (∀ (d : Nat) (f : BitVec 9), flagsFromInt ((d <<< 12 ||| f.toNat : Nat) : Int) = f) ∧
  (∀ n : Int, (flagsFromInt n).toNat < 512) ∧ (∀ k, k < 512 → ∃ n : Int, (flagsFromInt n).toNat = k)

/-- spec/42_flags.md R100, R103, R104: the masks in declaration order, distinct single bits that cover 0x1FF; accessor X
reads its one bit of FLAGS; equality of two values. -/
def Obligations.FlagAccessors : Prop :=
  ControlFlag.order.map (fun x => x.mask.toNat) = [256, 128, 64, 32, 16, 8, 4, 2, 1] ∧
  (∀ x : ControlFlag, x ∈ ControlFlag.order ∧ x.mask = BitVec.twoPow 9 x.bit) ∧
  ControlFlag.order.foldl (fun v x => v ||| x.mask) 0#9 = 0x1FF#9 ∧
  (∀ (f : BitVec 9) (x : ControlFlag), flagIsSet f x = true ↔ f &&& x.mask ≠ 0#9) ∧
  (∀ (f : BitVec 9) (x : ControlFlag), flagIsSet f x = f.getLsbD x.bit) ∧
  (∀ (f g : BitVec 9), f = g ↔ ∀ x, flagIsSet f x = flagIsSet g x)

/-- spec/30_encoding.md R72 and spec/95_test_vectors.md section 1.7: the textual form in the declared order. -/
def Obligations.FlagStrings : Prop :=
  flagsToString 0x012#9 = "ack syn" ∧ flagsToString 0x000#9 = "" ∧ flagsToString 0x010#9 = "ack" ∧
  flagsToString 0x102#9 = "ns syn" ∧ flagsToString 0x029#9 = "urg psh fin" ∧
  flagsToString 0x1FF#9 = "ns cwr ece urg ack psh rst syn fin"

/-! ### The options codec -/

/-- spec/43_options.md R111: OPT.CLR empties the list and OPTCNT is 0; nothing else changes. -/
def Obligations.OptionListClear : Prop :=
  encode .optClr = 0x30000000#32 ∧
  ∀ s : State, exec .optClr s = .next (({ s with opts := [] } : State).ended 0x00#8) ∧
    ({ s with opts := [] } : State).optcnt = 0#6

/-- spec/43_options.md R112: OPT.PUSH's tests in their order, and the record it appends. -/
def Obligations.OptionPush : Prop :=
  ∀ s : State,
    let k := s.owKind.toNat
    let n := s.owVlen.toNat
    let e := if k < 2 then 1 else 2 + n
    encode .optPush = 0x31000000#32 ∧
    (k < 2 ∧ n ≠ 0 → exec .optPush s = .next (s.ended 0x14#8)) ∧
    (2 ≤ k ∧ 38 < n → exec .optPush s = .next (s.ended 0x14#8)) ∧
    ((k < 2 → n = 0) ∧ n ≤ 38 ∧ 40 < rawLen s.opts + e → exec .optPush s = .next (s.ended 0x15#8)) ∧
    ((k < 2 → n = 0) ∧ n ≤ 38 ∧ rawLen s.opts + e ≤ 40 →
      ∃ (v : List Byte) (t : State), Shows s.owval n v ∧ exec .optPush s = .next t ∧
        t = ({ s with opts := s.opts ++ [⟨s.owKind, v⟩] } : State).ended 0x00#8 ∧
        t.optcnt.toNat = s.optcnt.toNat + 1)

/-- spec/43_options.md R113: OPT.GET copies record i into the window, its value followed by zeros, or refuses the index. -/
def Obligations.OptionGet : Prop :=
  ∀ (s : State) (i : Half), OptsOk s.opts →
    encode (.optGet i) = 0x32000000#32 ||| i.setWidth 32 ∧
    (s.optcnt.toNat ≤ i.toNat → exec (.optGet i) s = .next (s.ended 0x13#8)) ∧
    (i.toNat < s.optcnt.toNat →
      ∃ (r : OptRecord) (t : State), s.opts[i.toNat]? = some r ∧ exec (.optGet i) s = .next t ∧
        t.owKind = r.kind ∧ t.owVlen.toNat = r.value.length ∧
        (∀ a, a < 40 → Memory.lookup t.owval a = some (r.value.getD a 0x00#8)) ∧
        (∀ a, 40 ≤ a → Memory.lookup t.owval a = Memory.lookup s.owval a) ∧
        t = ({ s with owKind := t.owKind, owVlen := t.owVlen, owval := t.owval } : State).ended 0x00#8)

/-- spec/43_options.md R110, R115, R117: the encoding of a record, of a record given as 32-bit values, of a list, and the
padding. -/
def Obligations.OptionEncodingForm : Prop :=
  (∀ v, optEnc1 ⟨0#8, v⟩ = [0x00#8]) ∧ (∀ v, optEnc1 ⟨1#8, v⟩ = [0x01#8]) ∧
  (∀ (k : Byte) (v : List Byte), 2 ≤ k.toNat → optEnc1 ⟨k, v⟩ = k :: BitVec.ofNat 8 (2 + v.length) :: v) ∧
  (∀ (k : Byte) (ws : List Word), 2 ≤ k.toNat →
    optEnc1 ⟨k, ws.flatMap be32⟩ = k :: BitVec.ofNat 8 (2 + 4 * ws.length) :: ws.flatMap be32) ∧
  optsRaw [] = [] ∧ (∀ l m, optsRaw (l ++ m) = optsRaw l ++ optsRaw m) ∧ (∀ r, optsRaw [r] = optEnc1 r) ∧
  (∀ l, (optsRaw l).length = rawLen l) ∧
  (∀ l, ∃ n, n < 4 ∧ (rawLen l + n) % 4 = 0 ∧ optsEncode .noOp l = optsRaw l ++ List.replicate n 0x01#8 ∧
    optsEncode .endOfList l = optsRaw l ++ List.replicate n 0x00#8)

/-- spec/43_options.md R119: the encoded options always have a length that is a multiple of 4, at most 40 for a list that
is OPTS-OK. -/
def Obligations.OptionAlignment : Prop :=
  ∀ (p : PadByte) (l : List OptRecord),
    (optsEncode p l).length % 4 = 0 ∧ (OptsOk l → (optsEncode p l).length ≤ 40)

/-- spec/43_options.md R118: OPT.ENC writes the encoding to OPTBUF and its length to OPTLEN; nothing else changes. -/
def Obligations.OptionEncodeCommand : Prop :=
  ∀ s : State, OptsOk s.opts →
    let B := optsEncode s.params.pad s.opts
    encode .optEnc = 0x33000000#32 ∧ ∃ t : State, exec .optEnc s = .next t ∧ t.optlen.toNat = B.length ∧
      (∀ a, a < B.length → Memory.lookup t.optbuf a = B[a]?) ∧
      (∀ a, B.length ≤ a → Memory.lookup t.optbuf a = Memory.lookup s.optbuf a) ∧
      t = ({ s with optlen := t.optlen, optbuf := t.optbuf } : State).ended 0x00#8

/-- spec/43_options.md R122: the decoder, item by item. -/
def Obligations.OptionDecoderItems : Prop :=
  optsDecode [] = .ok [] ∧
  (∀ rest, optsDecode (0#8 :: rest) = .ok [⟨0#8, []⟩]) ∧
  (∀ rest l, optsDecode rest = .ok l → optsDecode (1#8 :: rest) = .ok (⟨1#8, []⟩ :: l)) ∧
  (∀ rest c, optsDecode rest = .error c → optsDecode (1#8 :: rest) = .error c) ∧
  (∀ k : Byte, 2 ≤ k.toNat →
    optsDecode [k] = .error .optionOverrun ∧
    (∀ (L : Byte) body, L.toNat < 2 → optsDecode (k :: L :: body) = .error .optionLength) ∧
    (∀ (L : Byte) body, 2 ≤ L.toNat → body.length + 2 < L.toNat →
      optsDecode (k :: L :: body) = .error .optionOverrun) ∧
    (∀ v rest l, v.length ≤ 253 → optsDecode rest = .ok l →
      optsDecode (k :: BitVec.ofNat 8 (2 + v.length) :: (v ++ rest)) = .ok (⟨k, v⟩ :: l)) ∧
    (∀ v rest c, v.length ≤ 253 → optsDecode rest = .error c →
      optsDecode (k :: BitVec.ofNat 8 (2 + v.length) :: (v ++ rest)) = .error c))

/-- spec/43_options.md R123: OPT.DEC replaces the list by the decoded content of OPTBUF, or keeps it whole and records the
cause; nothing else changes. Where every byte of the field has been written, the field is those bytes. -/
def Obligations.OptionDecodeCommand : Prop :=
  encode .optDec = 0x34000000#32 ∧ ∀ s : State, s.optlen.toNat ≤ 40 →
    (∀ (B : List Byte) (l : List OptRecord), B.length = s.optlen.toNat →
      (∀ a, a < B.length → Memory.lookup s.optbuf a = B[a]?) → optsDecode B = .ok l →
      exec .optDec s = .next (({ s with opts := l } : State).ended 0x00#8)) ∧
    ∃ B : List Byte, Shows s.optbuf s.optlen.toNat B ∧
      ((∃ l, optsDecode B = .ok l ∧ exec .optDec s = .next (({ s with opts := l } : State).ended 0x00#8)) ∨
       (optsDecode B = .error .optionLength ∧ exec .optDec s = .next (s.ended 0x31#8)) ∨
       (optsDecode B = .error .optionOverrun ∧ exec .optDec s = .next (s.ended 0x32#8)))

/-- spec/43_options.md R124: a decoded list is OPTS-OK; its raw encoding is the part of the field the scan consumed, so its
raw length is at most the field's. -/
def Obligations.DecodedListIsWellFormed : Prop :=
  ∀ (B : List Byte) (l : List OptRecord), B.length ≤ 40 → optsDecode B = .ok l →
    OptsOk l ∧ optsRaw l <+: B ∧ rawLen l ≤ B.length

/-- spec/43_options.md R125: decode after encode, in every case. -/
def Obligations.OptionDecodeAfterEncode : Prop :=
  ∀ l : List OptRecord, OptsOk l →
    let npad := (4 - rawLen l % 4) % 4
    (∀ p a r b, l = a ++ r :: b → NoEol a → r.kind = 0#8 → optsDecode (optsEncode p l) = .ok (a ++ [r])) ∧
    (NoEol l → optsDecode (optsEncode .noOp l) = .ok (l ++ List.replicate npad ⟨1#8, []⟩)) ∧
    (NoEol l → npad = 0 → optsDecode (optsEncode .endOfList l) = .ok l) ∧
    (NoEol l → 0 < npad → optsDecode (optsEncode .endOfList l) = .ok (l ++ [⟨0#8, []⟩]))

/-- spec/43_options.md R126: encode after decode of a field whose length is a multiple of 4; q is the index of the first
EndOfList in the field. -/
def Obligations.OptionEncodeAfterDecode : Prop :=
  ∀ (p : PadByte) (B : List Byte) (l : List OptRecord), optsDecode B = .ok l → B.length % 4 = 0 →
    (optsEncode p l).length ≤ B.length ∧
    (NoEol l → optsEncode p l = B) ∧
    (∀ a r, l = a ++ [r] → r.kind = 0#8 →
      let q := rawLen a
      NoEol a ∧ B[q]? = some 0#8 ∧ optsRaw l = B.take (q + 1) ∧
      ((optsEncode p l).length = B.length ↔ B.length ≤ q + 4))

/-- spec/30_encoding.md R73, spec/43_options.md R110: the pseudo-request `opt.words k, v0, ...` appends the document's
`Sized(kind, values)`, the values packed big-endian in order. -/
def Obligations.OptionWordsPushSizedRecord : Prop :=
  ∀ (s : State) (k : Byte) (vs : List Word), 2 ≤ k.toNat → vs.length ≤ 9 → OptsOk s.opts →
    rawLen s.opts + (2 + 4 * vs.length) ≤ 40 →
    ∃ t : State, runRequests s (optWords k vs) = .next t ∧ t.status = 0x00#8 ∧
      t.opts = s.opts ++ [⟨k, vs.flatMap be32⟩]

/-! ### The checksum engine -/

/-- spec/44_checksum.md R131: the loop of the fold, the sum of the words with a zero byte after an odd last byte, and the
complement. -/
def Obligations.ChecksumAlgorithm : Prop :=
  (∀ S : Nat, fold S = if S > 0xFFFF then fold ((S &&& 0xFFFF) + (S >>> 16)) else S) ∧
  (∀ B : List Byte, (checksum B).toNat = 65535 -
    fold (((List.range ((B.length + 1) / 2)).map
      (fun i => (B.getD (2 * i) 0x00#8).toNat * 256 + (B.getD (2 * i + 1) 0x00#8).toNat)).sum))

/-- spec/44_checksum.md R132: CSUM puts the checksum of SEGBUF[0 : SEGLEN] into CSUMRES; nothing else changes. -/
def Obligations.ChecksumCommand : Prop :=
  encode .csum = 0x40000000#32 ∧ ∀ s : State, s.seglen.toNat ≤ 65547 →
    ∃ B : List Byte, Shows s.segbuf s.seglen.toNat B ∧
      exec .csum s = .next (({ s with csumres := checksum B } : State).ended 0x00#8)

/-- spec/44_checksum.md R133, R134: the closed form of the fold, when the checksum is 0xFFFF and when it is 0x0000, folding
early or late, the order of the words and of the bytes in a word, and the sum over a first part of even and of odd
length. -/
def Obligations.ChecksumLaws : Prop :=
  fold 0 = 0 ∧
  (∀ S, 1 ≤ S → fold S = 1 + (S - 1) % 65535) ∧
  (∀ S, fold S = 0xFFFF ↔ 1 ≤ S ∧ S % 65535 = 0) ∧
  (∀ B : List Byte, checksum B = 0xFFFF#16 ↔ ∀ b ∈ B, b = 0#8) ∧
  (∀ B : List Byte, checksum B = 0x0000#16 ↔ 1 ≤ sumWords (padEven B) ∧ sumWords (padEven B) % 65535 = 0) ∧
  (∀ S T, fold (fold S + T) = fold (S + T)) ∧
  (∀ v w : List Half, v.Perm w → checksum (v.flatMap be16) = checksum (w.flatMap be16)) ∧
  checksum [0xFF#8, 0x00#8] ≠ checksum [0x00#8, 0xFF#8] ∧
  (∀ B C : List Byte, B.length % 2 = 0 →
    sumWords (padEven (B ++ C)) = sumWords (padEven B) + sumWords (padEven C)) ∧
  (∀ (B C : List Byte) (b c : Byte), B.length % 2 = 0 →
    sumWords (padEven ((B ++ [b]) ++ (c :: C))) =
      sumWords (padEven B) + (b.toNat * 256 + c.toNat) + sumWords (padEven C))

/-- spec/44_checksum.md R135: checking a stored checksum, and the one case the quick test lets through. -/
def Obligations.StoredChecksumCheck : Prop :=
  ∀ (A D : List Byte) (C : Half), A.length % 2 = 0 →
    let X := A ++ be16 C ++ D
    let X0 := A ++ [0x00#8, 0x00#8] ++ D
    (C = checksum X0 → checksum X = 0x0000#16) ∧
    (checksum X = 0x0000#16 → C = checksum X0 ∨ (checksum X0 = 0x0000#16 ∧ C = 0xFFFF#16)) ∧
    (checksum X0 = 0x0000#16 → C = 0xFFFF#16 → checksum X = 0x0000#16)

/-! ### The segment codec -/

/-- spec/45_segment.md R143, R145, R146: SEG.ENC's refusals, in the order they are tested; nothing but STATUS changes. -/
def Obligations.SerializeRefusals : Prop :=
  ∀ s : State,
    (s.llAttached = 0#1 → exec .segEnc s = .next (s.ended 0x41#8)) ∧
    (s.llAttached = 1#1 → s.llFamily ≠ 4#8 → exec .segEnc s = .next (s.ended 0x42#8)) ∧
    (s.llAttached = 1#1 → s.llFamily = 4#8 → s.paylen.toNat ≤ 65527 →
      s.serializedLength < s.params.minSegLen ∨ s.params.maxSegLen < s.serializedLength →
      exec .segEnc s = .next (s.ended 0x51#8))

/-- spec/45_segment.md R141 to R146: the bytes SEG.ENC writes, field by field, and SEGLEN; nothing else changes. -/
def Obligations.SerializeWritesSegment : Prop :=
  ∀ s : State, s.Ok → s.CanSerialize →
    ∃ (pay : List Byte) (t : State), Shows s.paybuf s.paylen.toNat pay ∧
      let ob := optsEncode s.params.pad s.opts
      let dataOffset := 5 + ob.length / 4
      let hdr := fun c : Half =>
        be16 s.sport ++ be16 s.dport ++ be32 s.seq ++ be32 s.ack ++
          be16 (BitVec.ofNat 16 (dataOffset * 4096 + s.flags.toNat)) ++ be16 s.win ++ be16 c ++ be16 s.urg
      let ph := be32 s.llSrc ++ be32 s.llDst ++ [0x00#8, s.llProto] ++
        be16 (BitVec.ofNat 16 (dataOffset * 4 + s.paylen.toNat))
      let out := hdr (checksum (ph ++ hdr 0#16 ++ ob ++ pay)) ++ ob ++ pay
      ob.length % 4 = 0 ∧ ob.length ≤ 40 ∧ 5 ≤ dataOffset ∧ dataOffset ≤ 15 ∧
      out.length = s.serializedLength ∧ exec .segEnc s = .next t ∧ t.seglen.toNat = out.length ∧
      (∀ a, a < out.length → Memory.lookup t.segbuf a = out[a]?) ∧
      (∀ a, out.length ≤ a → Memory.lookup t.segbuf a = Memory.lookup s.segbuf a) ∧
      t = ({ s with seglen := t.seglen, segbuf := t.segbuf } : State).ended 0x00#8

/-- spec/45_segment.md R147: what holds of every successful output of SEG.ENC. -/
def Obligations.SerializedSegmentProperties : Prop :=
  ∀ s t : State, s.Ok → exec .segEnc s = .next t → t.status = 0x00#8 →
    ∃ out : List Byte, out.length = t.seglen.toNat ∧ (∀ a, a < out.length → Memory.lookup t.segbuf a = out[a]?) ∧
      let ob := optsEncode s.params.pad s.opts
      let dataOffset := ((out.getD 12 0#8).extractLsb' 4 4).toNat
      let ph := be32 s.llSrc ++ be32 s.llDst ++ [0x00#8, s.llProto] ++ be16 (BitVec.ofNat 16 out.length)
      out.length = 20 + ob.length + s.paylen.toNat ∧
      s.params.minSegLen ≤ out.length ∧ out.length ≤ s.params.maxSegLen ∧
      dataOffset * 4 + s.paylen.toNat = out.length ∧ 5 ≤ dataOffset ∧ dataOffset ≤ 15 ∧
      (out.getD 12 0#8).extractLsb' 1 3 = 0#3 ∧
      u16be out 12 &&& 0x1FF#16 = s.flags.setWidth 16 ∧
      (out.take (dataOffset * 4)).drop 20 = ob ∧
      Shows s.paybuf s.paylen.toNat (out.drop (dataOffset * 4)) ∧
      checksum (ph ++ out) = 0x0000#16 ∧
      ∃ u : State, exec .segDec t = .next u ∧ u.status = 0x00#8

/-- spec/45_segment.md R150: SEG.DEC's refusals, in the order they are tested; nothing but STATUS changes. -/
def Obligations.ParseRefusals : Prop :=
  ∀ s : State, s.seglen.toNat ≤ 65547 →
    ∃ B : List Byte, Shows s.segbuf s.seglen.toNat B ∧
      let d := ((B.getD 12 0#8).extractLsb' 4 4).toNat
      let r := (B.getD 12 0#8).extractLsb' 1 3
      let field := (B.drop 20).take (4 * d - 20)
      (B.length < 20 → exec .segDec s = .next (s.ended 0x21#8)) ∧
      (20 ≤ B.length → r ≠ 0#3 → exec .segDec s = .next (s.ended 0x22#8)) ∧
      (20 ≤ B.length → r = 0#3 → d < 5 → exec .segDec s = .next (s.ended 0x23#8)) ∧
      (20 ≤ B.length → r = 0#3 → 5 ≤ d → B.length < 4 * d → exec .segDec s = .next (s.ended 0x24#8)) ∧
      (r = 0#3 → 5 ≤ d → 4 * d ≤ B.length → optsDecode field = .error .optionLength →
        exec .segDec s = .next (s.ended 0x31#8)) ∧
      (r = 0#3 → 5 ≤ d → 4 * d ≤ B.length → optsDecode field = .error .optionOverrun →
        exec .segDec s = .next (s.ended 0x32#8))

/-- spec/45_segment.md R150: the descriptor SEG.DEC writes, field by field; nothing else changes. -/
def Obligations.ParseWritesDescriptor : Prop :=
  ∀ s : State, s.seglen.toNat ≤ 65547 →
    ∃ B : List Byte, Shows s.segbuf s.seglen.toNat B ∧
      let at' := fun i => B.getD i 0#8
      let d := ((at' 12).extractLsb' 4 4).toNat
      ∀ l, 20 ≤ B.length → (at' 12).extractLsb' 1 3 = 0#3 → 5 ≤ d → 4 * d ≤ B.length →
        optsDecode ((B.drop 20).take (4 * d - 20)) = .ok l →
        ∃ t : State, exec .segDec s = .next t ∧
          t.sport = at' 0 ++ at' 1 ∧ t.dport = at' 2 ++ at' 3 ∧ t.seq = at' 4 ++ at' 5 ++ at' 6 ++ at' 7 ∧
          t.ack = at' 8 ++ at' 9 ++ at' 10 ++ at' 11 ∧ t.flags = (at' 12 ++ at' 13).extractLsb' 0 9 ∧
          t.win = at' 14 ++ at' 15 ∧ t.urg = at' 18 ++ at' 19 ∧ t.opts = l ∧
          t.paylen.toNat = B.length - 4 * d ∧
          (∀ a, a < B.length - 4 * d → Memory.lookup t.paybuf a = B[4 * d + a]?) ∧
          (∀ a, B.length - 4 * d ≤ a → Memory.lookup t.paybuf a = Memory.lookup s.paybuf a) ∧
          t = ({ s with sport := t.sport, dport := t.dport, seq := t.seq, ack := t.ack, flags := t.flags, win := t.win,
                        urg := t.urg, opts := t.opts, paylen := t.paylen, paybuf := t.paybuf,
                        llAttached := 0#1 } : State).ended 0x00#8

/-- spec/45_segment.md R151: SEG.DEC succeeds or fails without regard to bytes 16 and 17, and stores them nowhere. -/
def Obligations.ParseIgnoresChecksum : Prop :=
  ∀ (s t : State) (b c : Byte), exec .segDec s = .next t →
    exec .segDec (s.memWrite .segbuf 16 [b, c]) = .next { t with segbuf := (s.memWrite .segbuf 16 [b, c]).segbuf }

/-- spec/45_segment.md R152: a successful SEG.DEC leaves no lower-layer reference, keeps the other LL registers, and a
SEG.ENC issued next is refused with 0x41. -/
def Obligations.ParseDetachesLowerLayer : Prop :=
  ∀ s t : State, exec .segDec s = .next t → t.status = 0x00#8 →
    t.llAttached = 0#1 ∧ t.llFamily = s.llFamily ∧ t.llSrc = s.llSrc ∧ t.llDst = s.llDst ∧ t.llProto = s.llProto ∧
    exec .segEnc t = .next (t.ended 0x41#8)

/-- spec/45_segment.md R155: serialize, then deserialize. -/
def Obligations.SerializeThenParse : Prop :=
  ∀ s : State, s.Ok → s.CanSerialize → Written s.paybuf s.paylen.toNat →
    ∃ t u : State, exec .segEnc s = .next t ∧ t.status = 0x00#8 ∧ exec .segDec t = .next u ∧ u.status = 0x00#8 ∧
      u.sport = s.sport ∧ u.dport = s.dport ∧ u.seq = s.seq ∧ u.ack = s.ack ∧ u.flags = s.flags ∧ u.win = s.win ∧
      u.urg = s.urg ∧ SamePayload s u ∧ u.llAttached = 0#1 ∧
      optsDecode (optsEncode s.params.pad s.opts) = .ok u.opts ∧
      (NoEol s.opts.dropLast → rawLen s.opts % 4 = 0 → SameFields s u)

/-- spec/45_segment.md R156: deserialize, attach a lower layer, serialize. -/
def Obligations.ParseThenSerialize : Prop :=
  ∀ (s t v : State) (src dst : Word) (proto : Byte), s.Ok → Written s.segbuf s.seglen.toNat →
    exec .segDec s = .next t → t.status = 0x00#8 →
    exec .segEnc { t with llAttached := 1#1, llFamily := 4#8, llSrc := src, llDst := dst, llProto := proto } = .next v →
    v.status = 0x00#8 →
    ∃ B B' : List Byte, B.length = s.seglen.toNat ∧ (∀ a, a < B.length → Memory.lookup s.segbuf a = B[a]?) ∧
      B'.length = v.seglen.toNat ∧ (∀ a, a < B'.length → Memory.lookup v.segbuf a = B'[a]?) ∧
      let d := ((B.getD 12 0#8).extractLsb' 4 4).toNat
      let d' := ((B'.getD 12 0#8).extractLsb' 4 4).toNat
      let ph := be32 src ++ be32 dst ++ [0x00#8, proto] ++ be16 (BitVec.ofNat 16 B'.length)
      B'.take 12 = B.take 12 ∧ (B'.getD 12 0#8).extractLsb' 0 4 = (B.getD 12 0#8).extractLsb' 0 4 ∧
      (B'.drop 13).take 3 = (B.drop 13).take 3 ∧ (B'.drop 18).take 2 = (B.drop 18).take 2 ∧
      d' ≤ d ∧ optsDecode ((B.drop 20).take (4 * d - 20)) = .ok t.opts ∧
      (B'.drop 20).take (4 * d' - 20) = optsEncode s.params.pad t.opts ∧ B'.drop (4 * d') = B.drop (4 * d) ∧
      (NoEol t.opts → d' = d ∧ (B'.drop 20).take (4 * d' - 20) = (B.drop 20).take (4 * d - 20)) ∧
      u16be B' 16 = checksum (ph ++ B'.take 16 ++ [0x00#8, 0x00#8] ++ B'.drop 18)

/-- spec/45_segment.md R157: what SEG.ENC writes depends only on the registers and the contents R145 names. -/
def Obligations.SerializeIsPure : Prop :=
  ∀ s1 s2 t1 : State, s1.Ok → s2.Ok → s1.params = s2.params → s1.sport = s2.sport → s1.dport = s2.dport →
    s1.seq = s2.seq → s1.ack = s2.ack → s1.flags = s2.flags → s1.win = s2.win → s1.urg = s2.urg → s1.opts = s2.opts →
    SamePayload s1 s2 → s1.llAttached = s2.llAttached → s1.llFamily = s2.llFamily → s1.llSrc = s2.llSrc →
    s1.llDst = s2.llDst → s1.llProto = s2.llProto → exec .segEnc s1 = .next t1 →
    ∃ t2 : State, exec .segEnc s2 = .next t2 ∧ t2.status = t1.status ∧
      (t1.status = 0x00#8 → t2.seglen = t1.seglen ∧
        ∀ a, a < t1.seglen.toNat → Memory.lookup t2.segbuf a = Memory.lookup t1.segbuf a)

/-- spec/45_segment.md R157: what SEG.DEC writes depends only on SEGBUF[0 : SEGLEN]. -/
def Obligations.ParseIsPure : Prop :=
  ∀ s1 s2 t1 : State, s1.seglen = s2.seglen → Written s1.segbuf s1.seglen.toNat →
    (∀ a, a < s1.seglen.toNat → Memory.lookup s1.segbuf a = Memory.lookup s2.segbuf a) → exec .segDec s1 = .next t1 →
    ∃ t2 : State, exec .segDec s2 = .next t2 ∧ t2.status = t1.status ∧
      (t1.status = 0x00#8 → SameDescriptor t1 t2)
end

