-- ==== Sys2Proof/Laws/Bytes.lean ====
section
/-! SUPPORT. The byte order: lengths of the big-endian encodings, and that reading undoes them. -/

namespace Sys2Proof.Machine

@[simp] theorem be16_length (v : BitVec 16) : (be16 v).length = 2 := rfl

@[simp] theorem be32_length (v : BitVec 32) : (be32 v).length = 4 := rfl

/-- Two halves make the 16-bit value they were cut from. -/
theorem append_bytes16 (v : BitVec 16) : v.extractLsb' 8 8 ++ v.extractLsb' 0 8 = v := by
  apply BitVec.eq_of_getLsbD_eq
  intro i hi
  simp only [BitVec.getLsbD_append, BitVec.getLsbD_extractLsb']
  by_cases h : i < 8
  · simp [h]
  · simp [h, show i - 8 < 8 by omega, show 8 + (i - 8) = i by omega]

/-- Four bytes make the 32-bit value they were cut from. -/
theorem append_bytes32 (v : BitVec 32) :
    v.extractLsb' 24 8 ++ v.extractLsb' 16 8 ++ v.extractLsb' 8 8 ++ v.extractLsb' 0 8 = v := by
  apply BitVec.eq_of_getLsbD_eq
  intro i hi
  simp only [BitVec.getLsbD_append, BitVec.getLsbD_extractLsb']
  by_cases h : i < 8
  · simp [h]
  · by_cases h2 : i < 16
    · simp [h, show i - 8 < 8 by omega, show 8 + (i - 8) = i by omega]
    · by_cases h3 : i < 24
      · simp [h, show ¬ i - 8 < 8 by omega, show i - 8 - 8 < 8 by omega, show 16 + (i - 8 - 8) = i by omega]
      · simp [h, show ¬ i - 8 < 8 by omega, show ¬ i - 8 - 8 < 8 by omega, show i - 8 - 8 - 8 < 8 by omega,
          show 24 + (i - 8 - 8 - 8) = i by omega]

/-- The first byte of `u16be` is the high one. -/
theorem u16be_zero (a b : Byte) (l : List Byte) : u16be (a :: b :: l) 0 = a ++ b := rfl

theorem u16be_succ (a : Byte) (l : List Byte) (i : Nat) : u16be (a :: l) (i + 1) = u16be l i := rfl

theorem u32be_succ (a : Byte) (l : List Byte) (i : Nat) : u32be (a :: l) (i + 1) = u32be l i := rfl

/-- Reading a 16-bit value where it was placed. -/
theorem u16be_be16 (v : BitVec 16) (l : List Byte) : u16be (be16 v ++ l) 0 = v := append_bytes16 v

/-- Reading a 32-bit value where it was placed. -/
theorem u32be_be32 (v : BitVec 32) (l : List Byte) : u32be (be32 v ++ l) 0 = v := append_bytes32 v

/-- A 16-bit value as a number is its high byte times 256 plus its low byte. -/
theorem be16_toNat (v : BitVec 16) : (v.extractLsb' 8 8).toNat * 256 + (v.extractLsb' 0 8).toNat = v.toNat := by
  simp only [BitVec.extractLsb'_toNat, Nat.shiftRight_eq_div_pow]
  have := v.isLt
  omega

end Sys2Proof.Machine
end

