-- ==== Sys2Proof/Laws/State.lean ====
section
/-! SUPPORT. One lemma per field per named update of State, each true by definition, so that no later proof unfolds an
update: `succeed`, `raise`, `answer`, and the four cases of `setBuf`. -/

namespace Sys2Proof.Machine

variable (s : State) (c : Cause) (r : Reply) (m : Memory)

@[simp] theorem State.succeed_status : (s.succeed).status = 0x00#8 := rfl
@[simp] theorem State.succeed_tst : (s.succeed).tst = s.tst := rfl
@[simp] theorem State.succeed_csumres : (s.succeed).csumres = s.csumres := rfl
@[simp] theorem State.succeed_bs : (s.succeed).bs = s.bs := rfl
@[simp] theorem State.succeed_sport : (s.succeed).sport = s.sport := rfl
@[simp] theorem State.succeed_dport : (s.succeed).dport = s.dport := rfl
@[simp] theorem State.succeed_seq : (s.succeed).seq = s.seq := rfl
@[simp] theorem State.succeed_ack : (s.succeed).ack = s.ack := rfl
@[simp] theorem State.succeed_flags : (s.succeed).flags = s.flags := rfl
@[simp] theorem State.succeed_win : (s.succeed).win = s.win := rfl
@[simp] theorem State.succeed_urg : (s.succeed).urg = s.urg := rfl
@[simp] theorem State.succeed_llAttached : (s.succeed).llAttached = s.llAttached := rfl
@[simp] theorem State.succeed_llFamily : (s.succeed).llFamily = s.llFamily := rfl
@[simp] theorem State.succeed_llSrc : (s.succeed).llSrc = s.llSrc := rfl
@[simp] theorem State.succeed_llDst : (s.succeed).llDst = s.llDst := rfl
@[simp] theorem State.succeed_llProto : (s.succeed).llProto = s.llProto := rfl
@[simp] theorem State.succeed_paylen : (s.succeed).paylen = s.paylen := rfl
@[simp] theorem State.succeed_seglen : (s.succeed).seglen = s.seglen := rfl
@[simp] theorem State.succeed_optlen : (s.succeed).optlen = s.optlen := rfl
@[simp] theorem State.succeed_opts : (s.succeed).opts = s.opts := rfl
@[simp] theorem State.succeed_owKind : (s.succeed).owKind = s.owKind := rfl
@[simp] theorem State.succeed_owVlen : (s.succeed).owVlen = s.owVlen := rfl
@[simp] theorem State.succeed_segbuf : (s.succeed).segbuf = s.segbuf := rfl
@[simp] theorem State.succeed_paybuf : (s.succeed).paybuf = s.paybuf := rfl
@[simp] theorem State.succeed_optbuf : (s.succeed).optbuf = s.optbuf := rfl
@[simp] theorem State.succeed_owval : (s.succeed).owval = s.owval := rfl
@[simp] theorem State.succeed_params : (s.succeed).params = s.params := rfl
@[simp] theorem State.succeed_inputs : (s.succeed).inputs = s.inputs := rfl
@[simp] theorem State.succeed_returned : (s.succeed).returned = s.returned := rfl
@[simp] theorem State.succeed_draw : (s.succeed).draw = s.draw + 1 := rfl

@[simp] theorem State.raise_status : (s.raise c).status = c.code := rfl
@[simp] theorem State.raise_tst : (s.raise c).tst = s.tst := rfl
@[simp] theorem State.raise_csumres : (s.raise c).csumres = s.csumres := rfl
@[simp] theorem State.raise_bs : (s.raise c).bs = s.bs := rfl
@[simp] theorem State.raise_sport : (s.raise c).sport = s.sport := rfl
@[simp] theorem State.raise_dport : (s.raise c).dport = s.dport := rfl
@[simp] theorem State.raise_seq : (s.raise c).seq = s.seq := rfl
@[simp] theorem State.raise_ack : (s.raise c).ack = s.ack := rfl
@[simp] theorem State.raise_flags : (s.raise c).flags = s.flags := rfl
@[simp] theorem State.raise_win : (s.raise c).win = s.win := rfl
@[simp] theorem State.raise_urg : (s.raise c).urg = s.urg := rfl
@[simp] theorem State.raise_llAttached : (s.raise c).llAttached = s.llAttached := rfl
@[simp] theorem State.raise_llFamily : (s.raise c).llFamily = s.llFamily := rfl
@[simp] theorem State.raise_llSrc : (s.raise c).llSrc = s.llSrc := rfl
@[simp] theorem State.raise_llDst : (s.raise c).llDst = s.llDst := rfl
@[simp] theorem State.raise_llProto : (s.raise c).llProto = s.llProto := rfl
@[simp] theorem State.raise_paylen : (s.raise c).paylen = s.paylen := rfl
@[simp] theorem State.raise_seglen : (s.raise c).seglen = s.seglen := rfl
@[simp] theorem State.raise_optlen : (s.raise c).optlen = s.optlen := rfl
@[simp] theorem State.raise_opts : (s.raise c).opts = s.opts := rfl
@[simp] theorem State.raise_owKind : (s.raise c).owKind = s.owKind := rfl
@[simp] theorem State.raise_owVlen : (s.raise c).owVlen = s.owVlen := rfl
@[simp] theorem State.raise_segbuf : (s.raise c).segbuf = s.segbuf := rfl
@[simp] theorem State.raise_paybuf : (s.raise c).paybuf = s.paybuf := rfl
@[simp] theorem State.raise_optbuf : (s.raise c).optbuf = s.optbuf := rfl
@[simp] theorem State.raise_owval : (s.raise c).owval = s.owval := rfl
@[simp] theorem State.raise_params : (s.raise c).params = s.params := rfl
@[simp] theorem State.raise_inputs : (s.raise c).inputs = s.inputs := rfl
@[simp] theorem State.raise_returned : (s.raise c).returned = s.returned := rfl
@[simp] theorem State.raise_draw : (s.raise c).draw = s.draw + 1 := rfl

@[simp] theorem State.answer_status : (s.answer r).status = s.status := rfl
@[simp] theorem State.answer_tst : (s.answer r).tst = s.tst := rfl
@[simp] theorem State.answer_csumres : (s.answer r).csumres = s.csumres := rfl
@[simp] theorem State.answer_bs : (s.answer r).bs = s.bs := rfl
@[simp] theorem State.answer_sport : (s.answer r).sport = s.sport := rfl
@[simp] theorem State.answer_dport : (s.answer r).dport = s.dport := rfl
@[simp] theorem State.answer_seq : (s.answer r).seq = s.seq := rfl
@[simp] theorem State.answer_ack : (s.answer r).ack = s.ack := rfl
@[simp] theorem State.answer_flags : (s.answer r).flags = s.flags := rfl
@[simp] theorem State.answer_win : (s.answer r).win = s.win := rfl
@[simp] theorem State.answer_urg : (s.answer r).urg = s.urg := rfl
@[simp] theorem State.answer_llAttached : (s.answer r).llAttached = s.llAttached := rfl
@[simp] theorem State.answer_llFamily : (s.answer r).llFamily = s.llFamily := rfl
@[simp] theorem State.answer_llSrc : (s.answer r).llSrc = s.llSrc := rfl
@[simp] theorem State.answer_llDst : (s.answer r).llDst = s.llDst := rfl
@[simp] theorem State.answer_llProto : (s.answer r).llProto = s.llProto := rfl
@[simp] theorem State.answer_paylen : (s.answer r).paylen = s.paylen := rfl
@[simp] theorem State.answer_seglen : (s.answer r).seglen = s.seglen := rfl
@[simp] theorem State.answer_optlen : (s.answer r).optlen = s.optlen := rfl
@[simp] theorem State.answer_opts : (s.answer r).opts = s.opts := rfl
@[simp] theorem State.answer_owKind : (s.answer r).owKind = s.owKind := rfl
@[simp] theorem State.answer_owVlen : (s.answer r).owVlen = s.owVlen := rfl
@[simp] theorem State.answer_segbuf : (s.answer r).segbuf = s.segbuf := rfl
@[simp] theorem State.answer_paybuf : (s.answer r).paybuf = s.paybuf := rfl
@[simp] theorem State.answer_optbuf : (s.answer r).optbuf = s.optbuf := rfl
@[simp] theorem State.answer_owval : (s.answer r).owval = s.owval := rfl
@[simp] theorem State.answer_params : (s.answer r).params = s.params := rfl
@[simp] theorem State.answer_inputs : (s.answer r).inputs = s.inputs := rfl
@[simp] theorem State.answer_returned : (s.answer r).returned = s.returned ++ [r] := rfl
@[simp] theorem State.answer_draw : (s.answer r).draw = s.draw + 1 := rfl

@[simp] theorem State.setBuf_segbuf_status : (s.setBuf .segbuf m).status = s.status := rfl
@[simp] theorem State.setBuf_segbuf_tst : (s.setBuf .segbuf m).tst = s.tst := rfl
@[simp] theorem State.setBuf_segbuf_csumres : (s.setBuf .segbuf m).csumres = s.csumres := rfl
@[simp] theorem State.setBuf_segbuf_bs : (s.setBuf .segbuf m).bs = s.bs := rfl
@[simp] theorem State.setBuf_segbuf_sport : (s.setBuf .segbuf m).sport = s.sport := rfl
@[simp] theorem State.setBuf_segbuf_dport : (s.setBuf .segbuf m).dport = s.dport := rfl
@[simp] theorem State.setBuf_segbuf_seq : (s.setBuf .segbuf m).seq = s.seq := rfl
@[simp] theorem State.setBuf_segbuf_ack : (s.setBuf .segbuf m).ack = s.ack := rfl
@[simp] theorem State.setBuf_segbuf_flags : (s.setBuf .segbuf m).flags = s.flags := rfl
@[simp] theorem State.setBuf_segbuf_win : (s.setBuf .segbuf m).win = s.win := rfl
@[simp] theorem State.setBuf_segbuf_urg : (s.setBuf .segbuf m).urg = s.urg := rfl
@[simp] theorem State.setBuf_segbuf_llAttached : (s.setBuf .segbuf m).llAttached = s.llAttached := rfl
@[simp] theorem State.setBuf_segbuf_llFamily : (s.setBuf .segbuf m).llFamily = s.llFamily := rfl
@[simp] theorem State.setBuf_segbuf_llSrc : (s.setBuf .segbuf m).llSrc = s.llSrc := rfl
@[simp] theorem State.setBuf_segbuf_llDst : (s.setBuf .segbuf m).llDst = s.llDst := rfl
@[simp] theorem State.setBuf_segbuf_llProto : (s.setBuf .segbuf m).llProto = s.llProto := rfl
@[simp] theorem State.setBuf_segbuf_paylen : (s.setBuf .segbuf m).paylen = s.paylen := rfl
@[simp] theorem State.setBuf_segbuf_seglen : (s.setBuf .segbuf m).seglen = s.seglen := rfl
@[simp] theorem State.setBuf_segbuf_optlen : (s.setBuf .segbuf m).optlen = s.optlen := rfl
@[simp] theorem State.setBuf_segbuf_opts : (s.setBuf .segbuf m).opts = s.opts := rfl
@[simp] theorem State.setBuf_segbuf_owKind : (s.setBuf .segbuf m).owKind = s.owKind := rfl
@[simp] theorem State.setBuf_segbuf_owVlen : (s.setBuf .segbuf m).owVlen = s.owVlen := rfl
@[simp] theorem State.setBuf_segbuf_segbuf : (s.setBuf .segbuf m).segbuf = m := rfl
@[simp] theorem State.setBuf_segbuf_paybuf : (s.setBuf .segbuf m).paybuf = s.paybuf := rfl
@[simp] theorem State.setBuf_segbuf_optbuf : (s.setBuf .segbuf m).optbuf = s.optbuf := rfl
@[simp] theorem State.setBuf_segbuf_owval : (s.setBuf .segbuf m).owval = s.owval := rfl
@[simp] theorem State.setBuf_segbuf_params : (s.setBuf .segbuf m).params = s.params := rfl
@[simp] theorem State.setBuf_segbuf_inputs : (s.setBuf .segbuf m).inputs = s.inputs := rfl
@[simp] theorem State.setBuf_segbuf_returned : (s.setBuf .segbuf m).returned = s.returned := rfl
@[simp] theorem State.setBuf_segbuf_draw : (s.setBuf .segbuf m).draw = s.draw := rfl

@[simp] theorem State.setBuf_paybuf_status : (s.setBuf .paybuf m).status = s.status := rfl
@[simp] theorem State.setBuf_paybuf_tst : (s.setBuf .paybuf m).tst = s.tst := rfl
@[simp] theorem State.setBuf_paybuf_csumres : (s.setBuf .paybuf m).csumres = s.csumres := rfl
@[simp] theorem State.setBuf_paybuf_bs : (s.setBuf .paybuf m).bs = s.bs := rfl
@[simp] theorem State.setBuf_paybuf_sport : (s.setBuf .paybuf m).sport = s.sport := rfl
@[simp] theorem State.setBuf_paybuf_dport : (s.setBuf .paybuf m).dport = s.dport := rfl
@[simp] theorem State.setBuf_paybuf_seq : (s.setBuf .paybuf m).seq = s.seq := rfl
@[simp] theorem State.setBuf_paybuf_ack : (s.setBuf .paybuf m).ack = s.ack := rfl
@[simp] theorem State.setBuf_paybuf_flags : (s.setBuf .paybuf m).flags = s.flags := rfl
@[simp] theorem State.setBuf_paybuf_win : (s.setBuf .paybuf m).win = s.win := rfl
@[simp] theorem State.setBuf_paybuf_urg : (s.setBuf .paybuf m).urg = s.urg := rfl
@[simp] theorem State.setBuf_paybuf_llAttached : (s.setBuf .paybuf m).llAttached = s.llAttached := rfl
@[simp] theorem State.setBuf_paybuf_llFamily : (s.setBuf .paybuf m).llFamily = s.llFamily := rfl
@[simp] theorem State.setBuf_paybuf_llSrc : (s.setBuf .paybuf m).llSrc = s.llSrc := rfl
@[simp] theorem State.setBuf_paybuf_llDst : (s.setBuf .paybuf m).llDst = s.llDst := rfl
@[simp] theorem State.setBuf_paybuf_llProto : (s.setBuf .paybuf m).llProto = s.llProto := rfl
@[simp] theorem State.setBuf_paybuf_paylen : (s.setBuf .paybuf m).paylen = s.paylen := rfl
@[simp] theorem State.setBuf_paybuf_seglen : (s.setBuf .paybuf m).seglen = s.seglen := rfl
@[simp] theorem State.setBuf_paybuf_optlen : (s.setBuf .paybuf m).optlen = s.optlen := rfl
@[simp] theorem State.setBuf_paybuf_opts : (s.setBuf .paybuf m).opts = s.opts := rfl
@[simp] theorem State.setBuf_paybuf_owKind : (s.setBuf .paybuf m).owKind = s.owKind := rfl
@[simp] theorem State.setBuf_paybuf_owVlen : (s.setBuf .paybuf m).owVlen = s.owVlen := rfl
@[simp] theorem State.setBuf_paybuf_segbuf : (s.setBuf .paybuf m).segbuf = s.segbuf := rfl
@[simp] theorem State.setBuf_paybuf_paybuf : (s.setBuf .paybuf m).paybuf = m := rfl
@[simp] theorem State.setBuf_paybuf_optbuf : (s.setBuf .paybuf m).optbuf = s.optbuf := rfl
@[simp] theorem State.setBuf_paybuf_owval : (s.setBuf .paybuf m).owval = s.owval := rfl
@[simp] theorem State.setBuf_paybuf_params : (s.setBuf .paybuf m).params = s.params := rfl
@[simp] theorem State.setBuf_paybuf_inputs : (s.setBuf .paybuf m).inputs = s.inputs := rfl
@[simp] theorem State.setBuf_paybuf_returned : (s.setBuf .paybuf m).returned = s.returned := rfl
@[simp] theorem State.setBuf_paybuf_draw : (s.setBuf .paybuf m).draw = s.draw := rfl

@[simp] theorem State.setBuf_optbuf_status : (s.setBuf .optbuf m).status = s.status := rfl
@[simp] theorem State.setBuf_optbuf_tst : (s.setBuf .optbuf m).tst = s.tst := rfl
@[simp] theorem State.setBuf_optbuf_csumres : (s.setBuf .optbuf m).csumres = s.csumres := rfl
@[simp] theorem State.setBuf_optbuf_bs : (s.setBuf .optbuf m).bs = s.bs := rfl
@[simp] theorem State.setBuf_optbuf_sport : (s.setBuf .optbuf m).sport = s.sport := rfl
@[simp] theorem State.setBuf_optbuf_dport : (s.setBuf .optbuf m).dport = s.dport := rfl
@[simp] theorem State.setBuf_optbuf_seq : (s.setBuf .optbuf m).seq = s.seq := rfl
@[simp] theorem State.setBuf_optbuf_ack : (s.setBuf .optbuf m).ack = s.ack := rfl
@[simp] theorem State.setBuf_optbuf_flags : (s.setBuf .optbuf m).flags = s.flags := rfl
@[simp] theorem State.setBuf_optbuf_win : (s.setBuf .optbuf m).win = s.win := rfl
@[simp] theorem State.setBuf_optbuf_urg : (s.setBuf .optbuf m).urg = s.urg := rfl
@[simp] theorem State.setBuf_optbuf_llAttached : (s.setBuf .optbuf m).llAttached = s.llAttached := rfl
@[simp] theorem State.setBuf_optbuf_llFamily : (s.setBuf .optbuf m).llFamily = s.llFamily := rfl
@[simp] theorem State.setBuf_optbuf_llSrc : (s.setBuf .optbuf m).llSrc = s.llSrc := rfl
@[simp] theorem State.setBuf_optbuf_llDst : (s.setBuf .optbuf m).llDst = s.llDst := rfl
@[simp] theorem State.setBuf_optbuf_llProto : (s.setBuf .optbuf m).llProto = s.llProto := rfl
@[simp] theorem State.setBuf_optbuf_paylen : (s.setBuf .optbuf m).paylen = s.paylen := rfl
@[simp] theorem State.setBuf_optbuf_seglen : (s.setBuf .optbuf m).seglen = s.seglen := rfl
@[simp] theorem State.setBuf_optbuf_optlen : (s.setBuf .optbuf m).optlen = s.optlen := rfl
@[simp] theorem State.setBuf_optbuf_opts : (s.setBuf .optbuf m).opts = s.opts := rfl
@[simp] theorem State.setBuf_optbuf_owKind : (s.setBuf .optbuf m).owKind = s.owKind := rfl
@[simp] theorem State.setBuf_optbuf_owVlen : (s.setBuf .optbuf m).owVlen = s.owVlen := rfl
@[simp] theorem State.setBuf_optbuf_segbuf : (s.setBuf .optbuf m).segbuf = s.segbuf := rfl
@[simp] theorem State.setBuf_optbuf_paybuf : (s.setBuf .optbuf m).paybuf = s.paybuf := rfl
@[simp] theorem State.setBuf_optbuf_optbuf : (s.setBuf .optbuf m).optbuf = m := rfl
@[simp] theorem State.setBuf_optbuf_owval : (s.setBuf .optbuf m).owval = s.owval := rfl
@[simp] theorem State.setBuf_optbuf_params : (s.setBuf .optbuf m).params = s.params := rfl
@[simp] theorem State.setBuf_optbuf_inputs : (s.setBuf .optbuf m).inputs = s.inputs := rfl
@[simp] theorem State.setBuf_optbuf_returned : (s.setBuf .optbuf m).returned = s.returned := rfl
@[simp] theorem State.setBuf_optbuf_draw : (s.setBuf .optbuf m).draw = s.draw := rfl

@[simp] theorem State.setBuf_owval_status : (s.setBuf .owval m).status = s.status := rfl
@[simp] theorem State.setBuf_owval_tst : (s.setBuf .owval m).tst = s.tst := rfl
@[simp] theorem State.setBuf_owval_csumres : (s.setBuf .owval m).csumres = s.csumres := rfl
@[simp] theorem State.setBuf_owval_bs : (s.setBuf .owval m).bs = s.bs := rfl
@[simp] theorem State.setBuf_owval_sport : (s.setBuf .owval m).sport = s.sport := rfl
@[simp] theorem State.setBuf_owval_dport : (s.setBuf .owval m).dport = s.dport := rfl
@[simp] theorem State.setBuf_owval_seq : (s.setBuf .owval m).seq = s.seq := rfl
@[simp] theorem State.setBuf_owval_ack : (s.setBuf .owval m).ack = s.ack := rfl
@[simp] theorem State.setBuf_owval_flags : (s.setBuf .owval m).flags = s.flags := rfl
@[simp] theorem State.setBuf_owval_win : (s.setBuf .owval m).win = s.win := rfl
@[simp] theorem State.setBuf_owval_urg : (s.setBuf .owval m).urg = s.urg := rfl
@[simp] theorem State.setBuf_owval_llAttached : (s.setBuf .owval m).llAttached = s.llAttached := rfl
@[simp] theorem State.setBuf_owval_llFamily : (s.setBuf .owval m).llFamily = s.llFamily := rfl
@[simp] theorem State.setBuf_owval_llSrc : (s.setBuf .owval m).llSrc = s.llSrc := rfl
@[simp] theorem State.setBuf_owval_llDst : (s.setBuf .owval m).llDst = s.llDst := rfl
@[simp] theorem State.setBuf_owval_llProto : (s.setBuf .owval m).llProto = s.llProto := rfl
@[simp] theorem State.setBuf_owval_paylen : (s.setBuf .owval m).paylen = s.paylen := rfl
@[simp] theorem State.setBuf_owval_seglen : (s.setBuf .owval m).seglen = s.seglen := rfl
@[simp] theorem State.setBuf_owval_optlen : (s.setBuf .owval m).optlen = s.optlen := rfl
@[simp] theorem State.setBuf_owval_opts : (s.setBuf .owval m).opts = s.opts := rfl
@[simp] theorem State.setBuf_owval_owKind : (s.setBuf .owval m).owKind = s.owKind := rfl
@[simp] theorem State.setBuf_owval_owVlen : (s.setBuf .owval m).owVlen = s.owVlen := rfl
@[simp] theorem State.setBuf_owval_segbuf : (s.setBuf .owval m).segbuf = s.segbuf := rfl
@[simp] theorem State.setBuf_owval_paybuf : (s.setBuf .owval m).paybuf = s.paybuf := rfl
@[simp] theorem State.setBuf_owval_optbuf : (s.setBuf .owval m).optbuf = s.optbuf := rfl
@[simp] theorem State.setBuf_owval_owval : (s.setBuf .owval m).owval = m := rfl
@[simp] theorem State.setBuf_owval_params : (s.setBuf .owval m).params = s.params := rfl
@[simp] theorem State.setBuf_owval_inputs : (s.setBuf .owval m).inputs = s.inputs := rfl
@[simp] theorem State.setBuf_owval_returned : (s.setBuf .owval m).returned = s.returned := rfl
@[simp] theorem State.setBuf_owval_draw : (s.setBuf .owval m).draw = s.draw := rfl

end Sys2Proof.Machine
end

