-- ==== Sys2Proof/Laws/Memory.lean ====
section
/-! SUPPORT. The laws of the buffers: a read after a write, the canonical form kept by a write, and what `MemRead`,
`MemWrite` and their guarded forms do. -/

namespace Sys2Proof.Machine

/-! ### One buffer as data -/

theorem Memory.lookup_append (m n : Memory) (a : Nat) :
    Memory.lookup (m ++ n) a = (Memory.lookup m a).or (Memory.lookup n a) := by
  induction m with
  | nil => simp [Memory.lookup]
  | cons c rest ih =>
    simp only [List.cons_append, Memory.lookup]
    split <;> simp [ih]

/-- An address no cell holds has no byte. -/
theorem Memory.lookup_eq_none (m : Memory) (a : Nat) (h : ∀ c ∈ m, c.1 ≠ a) : Memory.lookup m a = none := by
  induction m with
  | nil => rfl
  | cons c rest ih =>
    simp only [Memory.lookup]
    rw [if_neg (h c (by simp)), ih (fun d hd => h d (by simp [hd]))]

/-- Filtering keeps the byte of an address the filter keeps. -/
theorem Memory.lookup_filter (m : Memory) (a : Nat) (p : Nat → Bool) (h : p a = true) :
    Memory.lookup (m.filter (fun c => p c.1)) a = Memory.lookup m a := by
  induction m with
  | nil => rfl
  | cons c rest ih =>
    by_cases hc : c.1 = a
    · simp [List.filter, Memory.lookup, hc, h]
    · by_cases hp : p c.1 = true <;> simp [List.filter, Memory.lookup, hc, hp, ih]

theorem Memory.lookup_cells (a : Nat) (B : List Byte) (x : Nat) :
    Memory.lookup (Memory.cells a B) x = if a ≤ x then B[x - a]? else none := by
  induction B generalizing a with
  | nil => simp [Memory.cells, Memory.lookup]
  | cons b rest ih =>
    simp only [Memory.cells, Memory.lookup, ih]
    by_cases h : a = x
    · simp [h]
    · by_cases h2 : a ≤ x
      · obtain ⟨k, rfl⟩ : ∃ k, x = a + 1 + k := ⟨x - (a + 1), by omega⟩
        simp [h, show a + 1 + k - a = k + 1 by omega]
        omega
      · rw [if_neg h, if_neg h2, if_neg (by omega)]

/-- What every address holds after a write: the byte written there, or what it held. -/
theorem Memory.lookup_store (m : Memory) (a : Nat) (B : List Byte) (x : Nat) :
    Memory.lookup (Memory.store m a B) x =
      if a ≤ x ∧ x < a + B.length then B[x - a]? else Memory.lookup m x := by
  simp only [Memory.store, Memory.lookup_append, Memory.lookup_cells]
  by_cases h1 : x < a
  · rw [if_neg (by omega), if_neg (by omega), Memory.lookup_filter m x (fun n => decide (n < a)) (by simpa using h1),
      Memory.lookup_eq_none (m.filter _) x (by
        intro c hc
        simp only [List.mem_filter, decide_eq_true_eq] at hc
        omega)]
    simp
  · rw [Memory.lookup_eq_none (m.filter fun c => decide (c.1 < a)) x (by
        intro c hc
        simp only [List.mem_filter, decide_eq_true_eq] at hc
        omega)]
    by_cases h2 : x < a + B.length
    · have hx : x - a < B.length := by omega
      rw [if_pos (by omega), if_pos (by omega)]
      simp [List.getElem?_eq_getElem hx]
    · rw [if_pos (by omega), if_neg (by omega),
        Memory.lookup_filter m x (fun n => decide (a + B.length ≤ n)) (by simpa using h2)]
      simp [List.getElem?_eq_none (show B.length ≤ x - a by omega)]

theorem Memory.cells_fst (a : Nat) (B : List Byte) : (Memory.cells a B).map Prod.fst = List.range' a B.length := by
  induction B generalizing a with
  | nil => rfl
  | cons b rest ih => simp [Memory.cells, ih, List.range'_succ]

/-- A write inside the capacity keeps the canonical form. -/
theorem Memory.store_wf {cap : Nat} {m : Memory} (a : Nat) (B : List Byte) (h : m.wf cap) (hB : a + B.length ≤ cap) :
    (Memory.store m a B).wf cap := by
  obtain ⟨hs, hc⟩ := h
  have key : ∀ c ∈ Memory.cells a B, a ≤ c.1 ∧ c.1 < a + B.length := by
    intro c hcm
    have : c.1 ∈ (Memory.cells a B).map Prod.fst := List.mem_map_of_mem hcm
    rw [Memory.cells_fst, List.mem_range'_1] at this
    omega
  rw [List.pairwise_map] at hs
  refine ⟨?_, ?_⟩
  · rw [List.pairwise_map]
    simp only [Memory.store, List.pairwise_append]
    refine ⟨⟨hs.filter _, ?_, ?_⟩, hs.filter _, ?_⟩
    · rw [← List.pairwise_map (f := Prod.fst) (R := (· < ·)), Memory.cells_fst]
      exact List.pairwise_lt_range'
    · intro x hx y hy
      simp only [List.mem_filter, decide_eq_true_eq] at hx
      have := key y hy
      omega
    · intro x hx y hy
      simp only [List.mem_append, List.mem_filter, decide_eq_true_eq] at hx hy
      rcases hx with hx | hx
      · omega
      · have := key x hx
        omega
  · intro c hcm
    simp only [Memory.store, List.mem_append, List.mem_filter] at hcm
    rcases hcm with (hcm | hcm) | hcm
    · exact hc c hcm.1
    · have := key c hcm
      omega
    · exact hc c hcm.1

/-! ### The buffers of a state -/

@[simp] theorem State.buf_setBuf_self (s : State) (sp : Space) (m : Memory) : (s.setBuf sp m).buf sp = m := by
  cases sp <;> rfl

theorem State.buf_setBuf_ne (s : State) {sp sq : Space} (m : Memory) (h : sq ≠ sp) : (s.setBuf sp m).buf sq = s.buf sq := by
  cases sp <;> cases sq <;> first | rfl | exact absurd rfl h

/-- After reset every buffer has the canonical form. -/
theorem State.buf_resetOf_wf (p : Params) (sp : Space) : ((State.resetOf p).buf sp).wf sp.capacity := by
  cases sp <;> exact ⟨List.Pairwise.nil, fun c hc => absurd hc (List.not_mem_nil)⟩

/-- `MemWrite` inside the capacity keeps the canonical form of every buffer. -/
theorem State.memWrite_wf {s : State} (sp : Space) (a : Nat) (B : List Byte) (hB : a + B.length ≤ sp.capacity)
    (h : ∀ sq, (s.buf sq).wf sq.capacity) (sq : Space) : ((s.memWrite sp a B).buf sq).wf sq.capacity := by
  by_cases hq : sq = sp
  · subst hq
    rw [State.memWrite, State.buf_setBuf_self]
    exact Memory.store_wf a B (h sq) hB
  · rw [State.memWrite, State.buf_setBuf_ne _ _ hq]
    exact h sq

/-- What every address of the written buffer holds after `MemWrite`. -/
theorem State.lookup_memWrite (s : State) (sp : Space) (a : Nat) (B : List Byte) (x : Nat) :
    Memory.lookup ((s.memWrite sp a B).buf sp) x =
      if a ≤ x ∧ x < a + B.length then B[x - a]? else Memory.lookup (s.buf sp) x := by
  simp [State.memWrite, Memory.lookup_store]

/-- `MemWrite` changes no other buffer. -/
theorem State.buf_memWrite_ne (s : State) {sp sq : Space} (a : Nat) (B : List Byte) (h : sq ≠ sp) :
    (s.memWrite sp a B).buf sq = s.buf sq := State.buf_setBuf_ne s _ h

@[simp] theorem State.memRead_length (s : State) (sp : Space) (a n : Nat) : (s.memRead sp a n).length = n := by
  simp [State.memRead]

/-- Byte i of `MemRead` is what is read at its address. -/
theorem State.memRead_getElem? (s : State) (sp : Space) (a n i : Nat) :
    (s.memRead sp a n)[i]? = if i < n then some (s.readByte sp (a + i)) else none := by
  simp only [State.memRead, List.getElem?_map]
  by_cases h : i < n
  · rw [List.getElem?_range' (by simpa using h)]
    simp [h]
  · rw [List.getElem?_eq_none (by simpa using h)]
    simp [h]

/-- A written byte reads as what was written. -/
theorem State.readByte_of_lookup {s : State} {sp : Space} {a : Nat} {b : Byte} (h : Memory.lookup (s.buf sp) a = some b) :
    s.readByte sp a = b := by
  simp [State.readByte, h]

/-- `MemRead` of written bytes is those bytes. -/
theorem State.memRead_eq_of_lookup {s : State} {sp : Space} {a : Nat} {B : List Byte}
    (h : ∀ i (hi : i < B.length), Memory.lookup (s.buf sp) (a + i) = some B[i]) : s.memRead sp a B.length = B := by
  apply List.ext_getElem?
  intro i
  rw [State.memRead_getElem?]
  split
  next hi => rw [State.readByte_of_lookup (h i hi), List.getElem?_eq_getElem hi]
  next hi => exact (List.getElem?_eq_none (by omega)).symm

/-- `MemRead` after `MemWrite` at the same place gives the bytes written. -/
theorem State.memRead_memWrite (s : State) (sp : Space) (a : Nat) (B : List Byte) :
    (s.memWrite sp a B).memRead sp a B.length = B := by
  apply State.memRead_eq_of_lookup
  intro i hi
  rw [State.lookup_memWrite, if_pos (by omega), show a + i - a = i by omega, List.getElem?_eq_getElem hi]

/-! ### The guarded forms: all they can do -/

/-- A command's `MemRead` either runs the rest of the command on the bytes read, or stops at the capacity. -/
theorem State.reading_cases (s : State) (sp : Space) (n : Nat) (k : List Byte → Host.Outcome State Fault Refusal) :
    (n ≤ sp.capacity ∧ s.reading sp n k = k (s.memRead sp 0 n)) ∨
    (sp.capacity < n ∧ s.reading sp n k = .fault (.beyondCapacity sp)) := by
  unfold State.reading
  by_cases h : n ≤ sp.capacity
  · exact .inl ⟨h, if_pos h⟩
  · exact .inr ⟨by omega, if_neg h⟩

theorem State.reading_of_le {s : State} {sp : Space} {n : Nat} {k : List Byte → Host.Outcome State Fault Refusal}
    (h : n ≤ sp.capacity) : s.reading sp n k = k (s.memRead sp 0 n) := if_pos h

/-- If a command that reads answers a next state, it has read inside the capacity. -/
theorem State.reading_next {s t : State} {sp : Space} {n : Nat} {k : List Byte → Host.Outcome State Fault Refusal}
    (h : s.reading sp n k = .next t) : n ≤ sp.capacity ∧ k (s.memRead sp 0 n) = .next t := by
  rcases s.reading_cases sp n k with ⟨hn, he⟩ | ⟨_, he⟩
  · exact ⟨hn, he ▸ h⟩
  · rw [he] at h
    cases h

/-- A command's `MemWrite` either writes the bytes and runs the rest of the command, or stops at the capacity. -/
theorem State.storing_cases (s : State) (sp : Space) (B : List Byte) (k : State → Host.Outcome State Fault Refusal) :
    (B.length ≤ sp.capacity ∧ s.storing sp B k = k (s.memWrite sp 0 B)) ∨
    (sp.capacity < B.length ∧ s.storing sp B k = .fault (.beyondCapacity sp)) := by
  unfold State.storing
  by_cases h : B.length ≤ sp.capacity
  · exact .inl ⟨h, if_pos h⟩
  · exact .inr ⟨by omega, if_neg h⟩

theorem State.storing_of_le {s : State} {sp : Space} {B : List Byte} {k : State → Host.Outcome State Fault Refusal}
    (h : B.length ≤ sp.capacity) : s.storing sp B k = k (s.memWrite sp 0 B) := if_pos h

/-- If a command that writes a buffer answers a next state, it has written inside the capacity. -/
theorem State.storing_next {s t : State} {sp : Space} {B : List Byte} {k : State → Host.Outcome State Fault Refusal}
    (h : s.storing sp B k = .next t) : B.length ≤ sp.capacity ∧ k (s.memWrite sp 0 B) = .next t := by
  rcases s.storing_cases sp B k with ⟨hn, he⟩ | ⟨_, he⟩
  · exact ⟨hn, he ▸ h⟩
  · rw [he] at h
    cases h

end Sys2Proof.Machine
end

