-- ==== Sys2Proof/Laws/Checksum.lean ====
section
/-! SUPPORT. The checksum engine: the equation of `fold` (its fuel is enough), its bound, and the sum over parts. -/

namespace Sys2Proof.Machine

theorem fold_step_lt {S : Nat} (h : 0xFFFF < S) : S % 65536 + S / 65536 < S := by omega

/-- As many turns as the value are enough. -/
theorem foldLoop_fuel (f g S : Nat) (hf : S ≤ f) (hg : S ≤ g) : foldLoop f S = foldLoop g S := by
  induction f generalizing g S with
  | zero =>
    obtain rfl : S = 0 := by omega
    cases g <;> simp [foldLoop]
  | succ f ih =>
    cases g with
    | zero =>
      obtain rfl : S = 0 := by omega
      simp [foldLoop]
    | succ g =>
      simp only [foldLoop]
      split
      next h =>
        have := fold_step_lt h
        exact ih g _ (by omega) (by omega)
      next => rfl

/-- The loop of spec/44_checksum.md R131. -/
theorem fold_eq (S : Nat) : fold S = if S > 0xFFFF then fold (S % 65536 + S / 65536) else S := by
  unfold fold
  cases S with
  | zero => rfl
  | succ n =>
    rw [foldLoop]
    split
    next h =>
      have := fold_step_lt h
      exact foldLoop_fuel _ _ _ (by omega) le_rfl
    next => rfl

theorem fold_of_le {S : Nat} (h : S ≤ 0xFFFF) : fold S = S := by
  rw [fold_eq, if_neg (by omega)]

theorem fold_of_gt {S : Nat} (h : 0xFFFF < S) : fold S = fold (S % 65536 + S / 65536) := by
  rw [fold_eq, if_pos h]

/-- The fold leaves no carry. -/
theorem fold_le (S : Nat) : fold S ≤ 0xFFFF := by
  induction S using Nat.strong_induction_on with
  | _ S ih =>
    by_cases h : 0xFFFF < S
    · rw [fold_of_gt h]
      exact ih _ (fold_step_lt h)
    · rw [fold_of_le (by omega)]
      omega

/-- The fold keeps the value modulo 65535. -/
theorem fold_mod (S : Nat) : fold S % 65535 = S % 65535 := by
  induction S using Nat.strong_induction_on with
  | _ S ih =>
    by_cases h : 0xFFFF < S
    · rw [fold_of_gt h, ih _ (fold_step_lt h)]
      omega
    · rw [fold_of_le (by omega)]

/-- The fold of a positive value is positive. -/
theorem fold_pos {S : Nat} (h : 1 ≤ S) : 1 ≤ fold S := by
  induction S using Nat.strong_induction_on with
  | _ S ih =>
    by_cases hg : 0xFFFF < S
    · rw [fold_of_gt hg]
      exact ih _ (fold_step_lt hg) (by omega)
    · rw [fold_of_le (by omega)]
      exact h

/-- The checksum as a number. -/
theorem checksum_toNat (B : List Byte) : (checksum B).toNat = 65535 - fold (sumWords (padEven B)) := by
  have := fold_le (sumWords (padEven B))
  simp only [checksum, BitVec.toNat_not, BitVec.toNat_ofNat]
  omega

/-- The words of an even part are summed as they stand. -/
theorem sumWords_append (B C : List Byte) (h : B.length % 2 = 0) : sumWords (B ++ C) = sumWords B + sumWords C := by
  induction B using sumWords.induct with
  | case1 a b rest ih =>
    simp only [List.cons_append, sumWords, List.length_cons] at h ⊢
    rw [ih (by omega)]
    omega
  | case2 B hB =>
    cases B with
    | nil => simp [sumWords]
    | cons a rest =>
      cases rest with
      | nil => simp at h
      | cons b rest => exact absurd rfl (hB a b rest)

theorem padEven_append (B C : List Byte) (h : B.length % 2 = 0) : padEven (B ++ C) = B ++ padEven C := by
  unfold padEven
  rw [List.length_append]
  by_cases hc : C.length % 2 = 1
  · rw [if_pos (by omega), if_pos hc, List.append_assoc]
  · rw [if_neg (by omega), if_neg hc]

theorem sumWords_be16 (v : BitVec 16) : sumWords (be16 v) = v.toNat := by
  simp only [be16, sumWords, BitVec.extractLsb'_toNat, Nat.shiftRight_eq_div_pow]
  have := v.isLt
  omega

end Sys2Proof.Machine
end

