-- ==== Sys2Proof/Laws/Options.lean ====
section
/-! SUPPORT. The options codec: lengths of the encodings, the equations of the decoder (its fuel is enough), and what one
record's encoding decodes to. -/

namespace Sys2Proof.Machine

/-! ### Encode -/

theorem byte_eq_zero_or_one {k : Byte} (h : k.toNat < 2) : k = 0#8 ∨ k = 1#8 := by
  rcases (show k.toNat = 0 ∨ k.toNat = 1 by omega) with h | h
  · exact .inl (BitVec.eq_of_toNat_eq h)
  · exact .inr (BitVec.eq_of_toNat_eq h)

theorem byte_ge_two {k : Byte} (h0 : k ≠ 0#8) (h1 : k ≠ 1#8) : 2 ≤ k.toNat := by
  by_contra h
  rcases byte_eq_zero_or_one (k := k) (by omega) with h | h
  · exact h0 h
  · exact h1 h

/-- The length of a record's encoding is its `enclen`. -/
theorem optEnc1_length (r : OptRecord) : (optEnc1 r).length = encLen r := by
  unfold optEnc1 encLen
  by_cases h0 : r.kind = 0#8
  · simp [h0]
  · by_cases h1 : r.kind = 1#8
    · simp [h1]
    · have := byte_ge_two h0 h1
      rw [if_neg h0, if_neg h1, if_neg (by omega)]
      simp
      omega

@[simp] theorem optsRaw_nil : optsRaw [] = [] := rfl

@[simp] theorem optsRaw_cons (r : OptRecord) (l : List OptRecord) : optsRaw (r :: l) = optEnc1 r ++ optsRaw l := rfl

theorem optsRaw_append (l m : List OptRecord) : optsRaw (l ++ m) = optsRaw l ++ optsRaw m := by simp [optsRaw]

@[simp] theorem rawLen_nil : rawLen [] = 0 := rfl

@[simp] theorem rawLen_cons (r : OptRecord) (l : List OptRecord) : rawLen (r :: l) = encLen r + rawLen l := rfl

theorem rawLen_append (l m : List OptRecord) : rawLen (l ++ m) = rawLen l + rawLen m := by simp [rawLen]

/-- The length of the raw encoding of a list is its `rawlen`. -/
@[simp] theorem optsRaw_length (l : List OptRecord) : (optsRaw l).length = rawLen l := by
  induction l with
  | nil => rfl
  | cons r l ih => simp [optEnc1_length, ih]

theorem encLen_pos (r : OptRecord) : 1 ≤ encLen r := by
  unfold encLen
  split <;> omega

/-- A list has no more records than bytes in its encoding. -/
theorem length_le_rawLen (l : List OptRecord) : l.length ≤ rawLen l := by
  induction l with
  | nil => simp
  | cons r l ih =>
    have := encLen_pos r
    simp
    omega

theorem padCount_lt (n : Nat) : padCount n < 4 := by
  unfold padCount
  omega

theorem padCount_mod (n : Nat) : (n + padCount n) % 4 = 0 := by
  unfold padCount
  omega

/-- The length of the padded encoding. -/
theorem optsEncode_length (p : PadByte) (l : List OptRecord) :
    (optsEncode p l).length = rawLen l + padCount (rawLen l) := by
  simp [optsEncode]

/-- A list of at most 40 raw bytes pads to at most 40 bytes. -/
theorem optsEncode_length_le (p : PadByte) {l : List OptRecord} (h : rawLen l ≤ 40) : (optsEncode p l).length ≤ 40 := by
  rw [optsEncode_length]
  have := padCount_mod (rawLen l)
  have := padCount_lt (rawLen l)
  omega

/-! ### Decode -/

/-- More fuel than bytes changes nothing. -/
theorem optsScan_fuel (B : List Byte) (f g : Nat) (hf : B.length ≤ f) (hg : B.length ≤ g) : optsScan f B = optsScan g B := by
  induction f generalizing B g with
  | zero =>
    obtain rfl : B = [] := by
      cases B with
      | nil => rfl
      | cons => simp at hf
    cases g <;> rfl
  | succ f ih =>
    cases B with
    | nil => cases g <;> rfl
    | cons k rest =>
      cases g with
      | zero => simp at hg
      | succ g =>
        simp only [List.length_cons, Nat.add_le_add_iff_right] at hf hg
        simp only [optsScan]
        rw [ih rest g hf hg]
        cases rest with
        | nil => rfl
        | cons L body =>
          simp only [List.length_cons] at hf hg
          simp only [ih (body.drop (L.toNat - 2)) g (by simp; omega) (by simp; omega)]

@[simp] theorem optsDecode_nil : optsDecode [] = .ok [] := rfl

/-- EndOfList is kept and ends the scan. -/
@[simp] theorem optsDecode_eol (rest : List Byte) : optsDecode (0#8 :: rest) = .ok [⟨0#8, []⟩] := rfl

/-- NoOp takes one byte. -/
@[simp] theorem optsDecode_nop (rest : List Byte) :
    optsDecode (1#8 :: rest) = (optsDecode rest).map (⟨1#8, []⟩ :: ·) := rfl

/-- A kind byte in the last position. -/
theorem optsDecode_single {k : Byte} (h0 : k ≠ 0#8) (h1 : k ≠ 1#8) : optsDecode [k] = .error .optionOverrun := by
  simp [optsDecode, optsScan, h0, h1]

/-- A sized item. -/
theorem optsDecode_sized {k : Byte} (L : Byte) (body : List Byte) (h0 : k ≠ 0#8) (h1 : k ≠ 1#8) :
    optsDecode (k :: L :: body) =
      if L.toNat < 2 then .error .optionLength
      else if body.length < L.toNat - 2 then .error .optionOverrun
      else (optsDecode (body.drop (L.toNat - 2))).map (⟨k, body.take (L.toNat - 2)⟩ :: ·) := by
  simp only [optsDecode, List.length_cons, optsScan, if_neg h0, if_neg h1]
  rw [optsScan_fuel (body.drop (L.toNat - 2)) (body.length + 1) (body.drop (L.toNat - 2)).length (by simp; omega) le_rfl]

/-- The encoding of a well-formed record is self-delimiting: it decodes to the record, whatever follows. -/
theorem optsDecode_enc1 {r : OptRecord} (h : r.Ok) (h0 : r.kind ≠ 0#8) (rest : List Byte) :
    optsDecode (optEnc1 r ++ rest) = (optsDecode rest).map (r :: ·) := by
  obtain ⟨k, v⟩ := r
  obtain ⟨hv, hl⟩ := h
  simp only at hv hl h0
  by_cases h1 : k = 1#8
  · subst h1
    obtain rfl : v = [] := List.length_eq_zero_iff.mp (hv (by decide))
    simp [optEnc1]
  · have hL : (BitVec.ofNat 8 (2 + v.length)).toNat = 2 + v.length := by
      simp
      omega
    simp only [optEnc1, if_neg h0, if_neg h1, List.cons_append, List.nil_append]
    rw [optsDecode_sized _ _ h0 h1, hL, if_neg (by omega), if_neg (by simp)]
    simp

/-- The encoding of a well-formed list without EndOfList decodes to the list followed by what follows it. -/
theorem optsDecode_raw {l : List OptRecord} (h : ∀ r ∈ l, r.Ok) (h0 : ∀ r ∈ l, r.kind ≠ 0#8) (rest : List Byte) :
    optsDecode (optsRaw l ++ rest) = (optsDecode rest).map (l ++ ·) := by
  induction l with
  | nil =>
    simp only [optsRaw_nil, List.nil_append]
    cases optsDecode rest <;> rfl
  | cons r l ih =>
    simp only [List.mem_cons, forall_eq_or_imp] at h h0
    rw [optsRaw_cons, List.append_assoc, optsDecode_enc1 h.1 h0.1, ih h.2 h0.2]
    cases optsDecode rest <;> rfl

/-- The errors of the decoder are the two MalformedOptions causes. -/
theorem optsDecode_error {B : List Byte} {c : Cause} (h : optsDecode B = .error c) :
    c = .optionLength ∨ c = .optionOverrun := by
  unfold optsDecode at h
  generalize B.length = f at h
  induction f generalizing B with
  | zero => cases B <;> cases h
  | succ f ih =>
    cases B with
    | nil => cases h
    | cons k rest =>
      simp only [optsScan] at h
      split at h
      · cases h
      · split at h
        · cases hr : optsScan f rest with
          | error d =>
            rw [hr] at h
            cases h
            exact ih hr
          | ok l =>
            rw [hr] at h
            cases h
        · split at h
          · cases h
            exact .inr rfl
          · split at h
            · cases h
              exact .inl rfl
            · split at h
              · cases h
                exact .inr rfl
              · rename_i L body _ _
                cases hr : optsScan f (body.drop (L.toNat - 2)) with
                | error d =>
                  rw [hr] at h
                  cases h
                  exact ih hr
                | ok l =>
                  rw [hr] at h
                  cases h

end Sys2Proof.Machine
end

