-- ==== Sys2Proof/Laws/Segment.lean ====
section
/-! SUPPORT. The segment codec: lengths of the pieces of a segment, the bytes of a serialized segment, and the causes the
parser can answer. -/

namespace Sys2Proof.Machine

@[simp] theorem State.header_length (s : State) : s.header.length = 20 := rfl

@[simp] theorem State.pseudoHeader_length (s : State) : s.pseudoHeader.length = 12 := rfl

theorem State.optionBytes_mod (s : State) : s.optionBytes.length % 4 = 0 := by
  rw [State.optionBytes, optsEncode_length, padCount_mod]

theorem State.dataOffset_mul (s : State) : s.dataOffset * 4 = 20 + s.optionBytes.length := by
  have := s.optionBytes_mod
  unfold State.dataOffset
  omega

/-- The header with its checksum field filled in. -/
theorem State.segmentBytes_eq (s : State) (pay : List Byte) :
    s.segmentBytes pay =
      be16 s.sport ++ be16 s.dport ++ be32 s.seq ++ be32 s.ack ++ be16 s.offsetFlags ++ be16 s.win ++
        be16 (s.segmentChecksum pay) ++ be16 s.urg ++ s.optionBytes ++ pay := rfl

@[simp] theorem State.segmentBytes_length (s : State) (pay : List Byte) :
    (s.segmentBytes pay).length = 20 + s.optionBytes.length + pay.length := by
  rw [State.segmentBytes_eq]
  simp
  omega

/-- The parser's errors are the causes of MalformedHeader and MalformedOptions. -/
theorem segParse_error {B : List Byte} {c : Cause} (h : segParse B = .error c) :
    c = .headerTruncated ∨ c = .headerReserved ∨ c = .dataOffsetLow ∨ c = .dataOffsetHigh ∨ c = .optionLength ∨
      c = .optionOverrun := by
  unfold segParse at h
  simp only at h
  split at h
  · cases h
    simp
  · split at h
    · cases h
      simp
    · split at h
      · cases h
        simp
      · split at h
        · cases h
          simp
        · split at h
          · rename_i d hd
            cases h
            have := optsDecode_error hd
            tauto
          · cases h

/-- What the parser answers: every test has passed, and each field is cut from its place. -/
theorem segParse_ok {B : List Byte} {p : Parsed} (h : segParse B = .ok p) :
    20 ≤ B.length ∧ reservedOf (u16be (B.take 20) 12) = 0#3 ∧
      ∃ n : Nat, optionsLengthOf (u16be (B.take 20) 12) = n ∧ n ≤ (B.drop 20).length ∧
        optsDecode ((B.drop 20).take n) = .ok p.opts ∧ p.payload = (B.drop 20).drop n ∧
        p.sport = u16be (B.take 20) 0 ∧ p.dport = u16be (B.take 20) 2 ∧ p.seq = u32be (B.take 20) 4 ∧
        p.ack = u32be (B.take 20) 8 ∧ p.flags = flagsFromInt (u16be (B.take 20) 12).toNat ∧
        p.win = u16be (B.take 20) 14 ∧ p.urg = u16be (B.take 20) 18 := by
  unfold segParse at h
  simp only at h
  split at h
  · cases h
  · split at h
    · cases h
    · rename_i hlen hres
      split at h
      · cases h
      · split at h
        · cases h
        · rename_i hneg hhi
          split at h
          · cases h
          · rename_i l hl
            cases h
            refine ⟨by omega, not_not.mp hres, (optionsLengthOf (u16be (B.take 20) 12)).toNat, by omega, by omega, hl, rfl,
              rfl, rfl, rfl, rfl, rfl, rfl, rfl⟩

end Sys2Proof.Machine
end

