-- ==== Sys2Proof/Laws/Commands.lean ====
section
/-! SUPPORT. Everything a command, a request and a step can do, said once: if it answers a next state, that state is one of
the cases listed. -/

namespace Sys2Proof.Machine

/-- The next states of a command: an error is `State.raise` with one of the command's causes and nothing else; success is
one update of the state, then `State.succeed`. -/
def Effect (i : Instr) (s t : State) : Prop :=
  match i with
  | .bsNew => t = { s with bs := 0#16 }.succeed
  | .bsSet mask => t = { s with bs := bitsSet s.bs mask }.succeed
  | .bsClr mask => t = { s with bs := bitsClr s.bs mask }.succeed
  | .bsTst mask => t = { s with tst := BitVec.ofBool (bitsTst s.params.issetMulti s.bs mask) }.succeed
  | .flgFromint n => t = { s with flags := flagsFromInt n.toNat }.succeed
  | .flgPack b => t = { s with flags := flagsFromBools (packOperand b) }.succeed
  | .optClr => t = { s with opts := [] }.succeed
  | .optPush =>
    (∃ c, t = s.raise c ∧ (c = .optionRecord ∨ c = .optionListSize)) ∨
    ((s.owKind.toNat < 2 → s.owVlen.toNat = 0) ∧ s.owVlen.toNat ≤ 38 ∧
      rawLen s.opts + s.windowEncLen ≤ 40 ∧
      t = { s with opts := s.opts ++ [s.windowRecord] }.succeed)
  | .optGet k =>
    t = s.raise .lengthRange ∨
    ∃ r ∈ s.opts, s.opts[k.toNat]? = some r ∧
      (r.value ++ List.replicate (40 - r.value.length) 0x00#8).length ≤ Space.owval.capacity ∧
      t = (({ s with owKind := r.kind, owVlen := BitVec.ofNat 8 r.value.length }).memWrite .owval 0
        (r.value ++ List.replicate (40 - r.value.length) 0x00#8)).succeed
  | .optEnc =>
    (optsEncode s.params.pad s.opts).length ≤ Space.optbuf.capacity ∧
      t = { s.memWrite .optbuf 0 (optsEncode s.params.pad s.opts) with
            optlen := BitVec.ofNat 6 (optsEncode s.params.pad s.opts).length }.succeed
  | .optDec =>
    s.optlen.toNat ≤ Space.optbuf.capacity ∧
      ((∃ c, t = s.raise c ∧ (c = .optionLength ∨ c = .optionOverrun)) ∨
       ∃ l, optsDecode (s.memRead .optbuf 0 s.optlen.toNat) = .ok l ∧ t = { s with opts := l }.succeed)
  | .csum =>
    s.seglen.toNat ≤ Space.segbuf.capacity ∧
      t = { s with csumres := checksum (s.memRead .segbuf 0 s.seglen.toNat) }.succeed
  | .segEnc =>
    (∃ c, t = s.raise c ∧ (c = .noLowerLayer ∨ c = .wrongFamily ∨ c = .segmentLength)) ∨
    (s.llAttached ≠ 0#1 ∧ s.llFamily = 4#8 ∧ s.paylen.toNat ≤ Space.paybuf.capacity ∧
      s.params.minSegLen ≤ (s.segmentBytes (s.memRead .paybuf 0 s.paylen.toNat)).length ∧
      (s.segmentBytes (s.memRead .paybuf 0 s.paylen.toNat)).length ≤ s.params.maxSegLen ∧
      (s.segmentBytes (s.memRead .paybuf 0 s.paylen.toNat)).length ≤ Space.segbuf.capacity ∧
      t = { s.memWrite .segbuf 0 (s.segmentBytes (s.memRead .paybuf 0 s.paylen.toNat)) with
            seglen := BitVec.ofNat 17 (s.segmentBytes (s.memRead .paybuf 0 s.paylen.toNat)).length }.succeed)
  | .segDec =>
    s.seglen.toNat ≤ Space.segbuf.capacity ∧
      ((∃ c, t = s.raise c ∧ segParse (s.memRead .segbuf 0 s.seglen.toNat) = .error c) ∨
       ∃ p, segParse (s.memRead .segbuf 0 s.seglen.toNat) = .ok p ∧ p.payload.length ≤ Space.paybuf.capacity ∧
         t = ((s.loadParsed p).memWrite .paybuf 0 p.payload).succeed)

/-- A command that answers a next state answers one of its effects. -/
theorem exec_next {i : Instr} {s t : State} (h : exec i s = .next t) : Effect i s t := by
  cases i with
  | bsNew => cases h; rfl
  | bsSet mask => cases h; rfl
  | bsClr mask => cases h; rfl
  | bsTst mask => cases h; rfl
  | flgFromint n => cases h; rfl
  | flgPack b => cases h; rfl
  | optClr => cases h; rfl
  | optPush =>
    simp only [exec, execOptPush] at h
    simp only [Effect]
    split at h
    · cases h
      exact .inl ⟨_, rfl, .inl rfl⟩
    · split at h
      · cases h
        exact .inl ⟨_, rfl, .inl rfl⟩
      · split at h
        · cases h
          exact .inl ⟨_, rfl, .inr rfl⟩
        · cases h
          refine .inr ⟨fun hk => ?_, by omega, by omega, rfl⟩
          by_contra hn
          exact absurd ⟨hk, hn⟩ ‹¬ (_ ∧ _)›
  | optGet k =>
    simp only [exec, execOptGet] at h
    split at h
    · cases h
      exact .inl rfl
    · rename_i r hr
      obtain ⟨hle, he⟩ := State.storing_next h
      cases he
      exact .inr ⟨r, List.mem_of_getElem? hr, hr, hle, rfl⟩
  | optEnc =>
    simp only [exec, execOptEnc] at h
    obtain ⟨hle, he⟩ := State.storing_next h
    cases he
    exact ⟨hle, rfl⟩
  | optDec =>
    simp only [exec, execOptDec] at h
    obtain ⟨hle, he⟩ := State.reading_next h
    split at he
    · rename_i c hc
      cases he
      exact ⟨hle, .inl ⟨c, rfl, optsDecode_error hc⟩⟩
    · rename_i l hl
      cases he
      exact ⟨hle, .inr ⟨l, hl, rfl⟩⟩
  | csum =>
    simp only [exec, execCsum] at h
    obtain ⟨hle, he⟩ := State.reading_next h
    cases he
    exact ⟨hle, rfl⟩
  | segEnc =>
    simp only [exec, execSegEnc] at h
    simp only [Effect]
    split at h
    · cases h
      exact .inl ⟨_, rfl, .inl rfl⟩
    · split at h
      · cases h
        exact .inl ⟨_, rfl, .inr (.inl rfl)⟩
      · rename_i ha hf
        obtain ⟨hle, he⟩ := State.reading_next h
        split at he
        · cases he
          exact .inl ⟨_, rfl, .inr (.inr rfl)⟩
        · rename_i hb
          obtain ⟨hle2, he2⟩ := State.storing_next he
          cases he2
          exact .inr ⟨ha, not_not.mp hf, hle, by omega, by omega, hle2, rfl⟩
  | segDec =>
    simp only [exec, execSegDec] at h
    obtain ⟨hle, he⟩ := State.reading_next h
    split at he
    · rename_i c hc
      cases he
      exact ⟨hle, .inl ⟨c, rfl, hc⟩⟩
    · rename_i p hp
      obtain ⟨hle2, he2⟩ := State.storing_next he
      cases he2
      exact ⟨hle, .inr ⟨p, hp, hle2, rfl⟩⟩

/-- The next states of a host request. -/
def Served (r : Request) (s t : State) : Prop :=
  match r with
  | .wr off v =>
    (∃ c, c ≠ Cause.success ∧ t = s.raise c) ∨
    (∃ i, off = 0 ∧ 0 ≤ v.toInt ∧ v.toInt ≤ 4294967295 ∧ decode (BitVec.ofInt 32 v.toInt) = .ok i ∧ exec i s = .next t) ∨
    (∃ r top c, regAt off = some r ∧ r.access = .checked top c ∧ 0 ≤ v.toInt ∧ v.toInt ≤ top ∧
      t = (s.storeReg r v.toInt.toNat).succeed)
  | .rd _ => ∃ v, t = s.answer (.reg v)
  | .wrb space addr b =>
    (∃ c, c ≠ Cause.success ∧ t = s.raise c) ∨
    (∃ sp, spaceOf space = some sp ∧ 0 ≤ addr.toInt ∧ addr.toInt < sp.capacity ∧ 0 ≤ b.toInt ∧ b.toInt ≤ 255 ∧
      t = (s.memWrite sp addr.toInt.toNat [BitVec.ofInt 8 b.toInt]).succeed)
  | .rdb _ _ => ∃ b, t = s.answer (.byte b)

theorem causeOf_ne_success (e : DecodeError) : causeOf e ≠ .success := by cases e <;> simp [causeOf]

/-- The register at an offset has that offset. -/
theorem regAt_offset {off : Nat} {r : Register} (h : regAt off = some r) : r.offset = off := by
  have := List.find?_some h
  simpa using this

/-- Every checked register refuses with an InvalidArgument cause. -/
theorem access_ne_success {r : Register} {top : Nat} {c : Cause} (h : r.access = .checked top c) : c ≠ .success := by
  cases r <;> simp only [Register.access, WriteAccess.checked.injEq, reduceCtorEq] at h <;> obtain ⟨_, rfl⟩ := h <;> simp

/-- The only register whose write executes is CMD. -/
theorem access_executes {r : Register} (h : r.access = .executes) : r = .cmd := by
  cases r <;> first | rfl | cases h

/-- A request that answers a next state answers one of the states listed. -/
theorem serve_next {r : Request} {s t : State} (h : serve r s = .next t) : Served r s t := by
  cases r with
  | wr off v =>
    simp only [serve, serveWr] at h
    simp only [Served]
    split at h
    · cases h
      exact .inl ⟨_, by simp, rfl⟩
    · rename_i r hr
      split at h
      · rename_i ha
        obtain rfl := access_executes ha
        have hoff := regAt_offset hr
        simp only [writeCmd] at h
        split at h
        · cases h
          exact .inl ⟨_, by simp, rfl⟩
        · split at h
          · cases h
            exact .inl ⟨_, causeOf_ne_success _, rfl⟩
          · rename_i i hi
            exact .inr (.inl ⟨i, hoff.symm, by omega, by omega, hi, h⟩)
      · cases h
        exact .inl ⟨_, by simp, rfl⟩
      · rename_i top c ha
        split at h
        · cases h
          exact .inl ⟨_, access_ne_success ha, rfl⟩
        · cases h
          exact .inr (.inr ⟨r, top, c, hr, ha, by omega, by omega, rfl⟩)
  | rd off =>
    simp only [serve, serveRd] at h
    simp only [Served]
    split at h <;> cases h <;> exact ⟨_, rfl⟩
  | wrb space addr b =>
    simp only [serve, serveWrb] at h
    simp only [Served]
    split at h
    · cases h
      exact .inl ⟨_, by simp, rfl⟩
    · rename_i sp hsp
      split at h
      · cases h
        exact .inl ⟨_, by simp, rfl⟩
      · cases h
        exact .inr ⟨sp, hsp, by omega, by omega, by omega, by omega, rfl⟩
  | rdb space addr =>
    simp only [serve, serveRdb] at h
    simp only [Served]
    split at h
    · cases h
      exact ⟨_, rfl⟩
    · split at h <;> cases h <;> exact ⟨_, rfl⟩

/-- A step that answers a next state has done nothing, served the oldest request, or been reset. -/
theorem step_next {s t : State} (h : step s = .next t) :
    (s.inputs = [] ∧ t = s) ∨
    (∃ r rest, s.inputs = .request r :: rest ∧ serve r { s with inputs := rest } = .next t) ∨
    (∃ rest, s.inputs = .reset :: rest ∧ t = ({ s with inputs := rest }).resetEvent) := by
  simp only [step, takeInput] at h
  split at h
  · rename_i he
    cases h
    exact .inl ⟨he, rfl⟩
  · rename_i i rest he
    cases i with
    | request r => exact .inr (.inl ⟨r, rest, he, h⟩)
    | reset =>
      cases h
      exact .inr (.inr ⟨rest, he, rfl⟩)

end Sys2Proof.Machine
end

