-- ==== Sys2Proof/Laws/Decode.lean ====
section
/-! SUPPORT. The fields of a command word, and the opcode map as a list of cases. -/

namespace Sys2Proof

/-- A word is its three fields side by side. -/
theorem cmd_fields_append (w : Word) : (opcOf w ++ rsvOf w ++ immOf w : BitVec 32) = w := by
  apply BitVec.eq_of_getLsbD_eq
  intro i hi
  simp only [opcOf, rsvOf, immOf, BitVec.getLsbD_append, BitVec.getLsbD_extractLsb']
  by_cases h : i < 16
  · simp [h]
  · by_cases h2 : i < 24
    · simp [h, show i - 16 < 8 by omega, show 16 + (i - 16) = i by omega]
    · simp [h, show ¬ i - 16 < 8 by omega, show i - 16 - 8 < 8 by omega, show 24 + (i - 16 - 8) = i by omega]

@[simp] theorem opcOf_cmd32 (opc : Byte) (imm : Half) : opcOf (cmd32 opc imm) = opc := by
  apply BitVec.eq_of_getLsbD_eq
  intro i hi
  simp only [opcOf, cmd32, BitVec.getLsbD_extractLsb', BitVec.getLsbD_append]
  simp [hi, show ¬ 24 + i < 16 by omega, show ¬ 24 + i - 16 < 8 by omega, show 24 + i - 16 - 8 = i by omega]

@[simp] theorem rsvOf_cmd32 (opc : Byte) (imm : Half) : rsvOf (cmd32 opc imm) = 0#8 := by
  apply BitVec.eq_of_getLsbD_eq
  intro i hi
  simp only [rsvOf, cmd32, BitVec.getLsbD_extractLsb', BitVec.getLsbD_append]
  simp [hi, show ¬ 16 + i < 16 by omega]

@[simp] theorem immOf_cmd32 (opc : Byte) (imm : Half) : immOf (cmd32 opc imm) = imm := by
  apply BitVec.eq_of_getLsbD_eq
  intro i hi
  simp only [immOf, cmd32, BitVec.getLsbD_extractLsb', BitVec.getLsbD_append]
  simp [hi]

/-- The opcode map, row by row. -/
def opcodeRows : List (Byte × OperandForm) :=
  [(0x10#8, .none .bsNew), (0x11#8, .half .bsSet), (0x12#8, .half .bsClr), (0x13#8, .half .bsTst),
   (0x20#8, .half .flgFromint), (0x21#8, .nine .flgPack), (0x30#8, .none .optClr), (0x31#8, .none .optPush),
   (0x32#8, .half .optGet), (0x33#8, .none .optEnc), (0x34#8, .none .optDec), (0x40#8, .none .csum),
   (0x50#8, .none .segEnc), (0x51#8, .none .segDec)]

/-- An opcode is in the map exactly when it has a row, and the map gives the row's form. -/
theorem opcodeMap_cases (opc : Byte) :
    (opc ∉ Machine.commandOpcodes ∧ opcodeMap opc = none) ∨ ∃ row ∈ opcodeRows, opc = row.1 ∧ opcodeMap opc = some row.2 := by
  by_cases h : opc ∈ Machine.commandOpcodes
  · right
    simp only [Machine.commandOpcodes, List.mem_cons, List.not_mem_nil, or_false] at h
    rcases h with h | h | h | h | h | h | h | h | h | h | h | h | h | h <;> subst h <;>
      simp [opcodeRows, opcodeMap]
  · left
    refine ⟨h, ?_⟩
    simp only [Machine.commandOpcodes, List.mem_cons, List.not_mem_nil, or_false, not_or] at h
    have key : ∀ n : Nat, opc.toNat = n → opc = BitVec.ofNat 8 n := by
      rintro n rfl
      simp
    unfold opcodeMap
    split <;> first | rfl | (rename_i hn; have := key _ hn; simp_all)

end Sys2Proof
end

