-- ==== Sys2Proof/Laws/PerInstr.lean ====
section
/-! SUPPORT. Statements made per command: the word a command encodes to lies in its row of the opcode map, which is what
"W & mask = match" says (spec/30_encoding.md R61). -/

namespace Sys2Proof.Laws.TableRow

/-- The word of a well-formed command matches its row of the opcode map. -/
def Statement (i : Instr) : Prop := i.wf = true → encode i &&& i.tableMask = i.tableMatch

theorem cmd32_and_operand (opc : Byte) (imm : Half) :
    cmd32 opc imm &&& 0xFFFF0000#32 = opc ++ 0#8 ++ 0#16 := by
  apply BitVec.eq_of_getLsbD_eq
  intro i hi
  have : (0xFFFF0000#32).getLsbD i = decide (16 ≤ i) := by
    revert i
    decide
  simp only [cmd32, BitVec.getLsbD_and, this, BitVec.getLsbD_append]
  by_cases h : i < 16
  · simp [h, show ¬ 16 ≤ i by omega]
  · simp [h, show 16 ≤ i by omega]

theorem bsNew : Statement .bsNew := fun _ => by decide

theorem bsSet (mask : Half) : Statement (.bsSet mask) := fun _ => (cmd32_and_operand 0x11#8 mask).trans rfl

theorem bsClr (mask : Half) : Statement (.bsClr mask) := fun _ => (cmd32_and_operand 0x12#8 mask).trans rfl

theorem bsTst (mask : Half) : Statement (.bsTst mask) := fun _ => (cmd32_and_operand 0x13#8 mask).trans rfl

theorem flgFromint (n : Half) : Statement (.flgFromint n) := fun _ => (cmd32_and_operand 0x20#8 n).trans rfl

theorem flgPack (b : Half) : Statement (.flgPack b) := by
  intro h
  have hb : ∀ i, 9 ≤ i → b.getLsbD i = false := by
    intro i hi
    by_cases h16 : i < 16
    · have he : b.extractLsb' 9 7 = 0#7 := by simpa [Instr.wf] using h
      have := congrArg (fun v => v.getLsbD (i - 9)) he
      simpa [BitVec.getLsbD_extractLsb', show i - 9 < 7 by omega, show 9 + (i - 9) = i by omega] using this
    · exact BitVec.getLsbD_of_ge _ _ (by omega)
  apply BitVec.eq_of_getLsbD_eq
  intro i hi
  have hm : (0xFFFFFE00#32).getLsbD i = decide (9 ≤ i) := by
    revert i
    decide
  have ht : (0x21000000#32).getLsbD i = (decide (16 ≤ i) && (0x21#8 ++ 0#8 : BitVec 16).getLsbD (i - 16)) := by
    revert i
    decide
  simp only [encode, Instr.tableMask, Instr.tableMatch, cmd32, BitVec.getLsbD_and, hm, ht, BitVec.getLsbD_append]
  by_cases h9 : 9 ≤ i
  · by_cases h16 : i < 16
    · have := hb i h9
      simp_all [show ¬ 16 ≤ i by omega]
    · simp [h9, h16, show 16 ≤ i by omega]
  · simp [h9, show ¬ 16 ≤ i by omega]

theorem optClr : Statement .optClr := fun _ => by decide

theorem optPush : Statement .optPush := fun _ => by decide

theorem optGet (i : Half) : Statement (.optGet i) := fun _ => (cmd32_and_operand 0x32#8 i).trans rfl

theorem optEnc : Statement .optEnc := fun _ => by decide

theorem optDec : Statement .optDec := fun _ => by decide

theorem csum : Statement .csum := fun _ => by decide

theorem segEnc : Statement .segEnc := fun _ => by decide

theorem segDec : Statement .segDec := fun _ => by decide

end Sys2Proof.Laws.TableRow
end

