-- ==== Sys2Proof/Tests/Slice0.lean ====
section
/-! SUPPORT. The model's own tests: the smoke test of WellFormed, command words written out from spec/30_encoding.md R61,
single steps with the values of spec/95_test_vectors.md, and for every obligation with hypotheses a named witness. -/

namespace Sys2Proof.Tests

open Sys2Proof Sys2Proof.Machine

/-! ### Helpers -/

/-- The next state of an outcome. -/
def after (o : Host.Outcome State Fault Refusal) : State :=
  match o with
  | .next t => t
  | .fault _ => State.reset
  | .refused _ => State.reset

/-- The outcome is a next state. -/
def isNext (o : Host.Outcome State Fault Refusal) : Bool :=
  match o with
  | .next _ => true
  | .fault _ => false
  | .refused _ => false

theorem next_after {o : Host.Outcome State Fault Refusal} (h : isNext o = true) : o = .next (after o) := by
  cases o <;> first | rfl | cases h

/-- The first n bytes of a buffer, as far as they have been written. -/
def bytes (m : Memory) (n : Nat) : List (Option Byte) := (List.range n).map (Memory.lookup m)

/-- The outcome is a next state that passes a test. -/
def gives (o : Host.Outcome State Fault Refusal) (P : State → Bool) : Bool :=
  match o with
  | .next t => P t
  | .fault _ => false
  | .refused _ => false

/-! ### WellFormed and Decode -/

/-- spec/30_encoding.md R63: a bit of IMM[15:9] makes FLG.PACK ill-formed, the nine lower bits do not. -/
theorem test_wf : Instr.wf (.flgPack 0x0200#16) = false ∧ Instr.wf (.flgPack 0x8000#16) = false ∧
    Instr.wf (.flgPack 0x01FF#16) = true ∧ Instr.wf (.bsSet 0xFFFF#16) = true := by decide

/-- The words of the bit-flag container (R61). -/
theorem test_decode_bitset :
    decode (0b00010000#8 ++ 0b00000000#8 ++ 0b0000000000000000#16) = .ok .bsNew ∧
    decode (0b00010001#8 ++ 0b00000000#8 ++ 0b1000000100000000#16) = .ok (.bsSet 0x8100#16) ∧
    decode (0b00010010#8 ++ 0b00000000#8 ++ 0b0000000000000010#16) = .ok (.bsClr 0x0002#16) ∧
    decode (0b00010011#8 ++ 0b00000000#8 ++ 0b0000000000010001#16) = .ok (.bsTst 0x0011#16) := by decide

/-- The words of the control-flag set (R61). -/
theorem test_decode_flags :
    decode (0b00100000#8 ++ 0b00000000#8 ++ 0b1111111000000000#16) = .ok (.flgFromint 0xFE00#16) ∧
    decode (0b00100001#8 ++ 0b00000000#8 ++ 0b0000000000010010#16) = .ok (.flgPack 0x0012#16) := by decide

/-- The words of the options codec (R61). -/
theorem test_decode_options :
    decode (0b00110000#8 ++ 0b00000000#8 ++ 0b0000000000000000#16) = .ok .optClr ∧
    decode (0b00110001#8 ++ 0b00000000#8 ++ 0b0000000000000000#16) = .ok .optPush ∧
    decode (0b00110010#8 ++ 0b00000000#8 ++ 0b0000000000000010#16) = .ok (.optGet 2#16) ∧
    decode (0b00110011#8 ++ 0b00000000#8 ++ 0b0000000000000000#16) = .ok .optEnc ∧
    decode (0b00110100#8 ++ 0b00000000#8 ++ 0b0000000000000000#16) = .ok .optDec := by decide

/-- The words of the checksum engine and the segment codec (R61). -/
theorem test_decode_segment :
    decode (0b01000000#8 ++ 0b00000000#8 ++ 0b0000000000000000#16) = .ok .csum ∧
    decode (0b01010000#8 ++ 0b00000000#8 ++ 0b0000000000000000#16) = .ok .segEnc ∧
    decode (0b01010001#8 ++ 0b00000000#8 ++ 0b0000000000000000#16) = .ok .segDec := by decide

/-- The refused words of spec/95_test_vectors.md section 2.7, by name. -/
theorem test_decode_refuses :
    decode 0x14000000#32 = .error .unknownOpcode ∧ decode 0xFFFFFFFF#32 = .error .unknownOpcode ∧
    decode 0x00010000#32 = .error .unknownOpcode ∧ decode 0x10010000#32 = .error .reservedBits ∧
    decode 0x10000001#32 = .error .operandBits ∧ decode 0x21000200#32 = .error .packBits := by decide

/-- The host's reading of a word, and the same word run as the first step after reset. -/
theorem test_table_word : decodeTableWord 32 0x13000012 = some (.bsTst 0x0012#16) ∧ decodeTableWord 32 0x2100FE00 = none ∧
    gives (step (State.reset.withFetchWord 32 0x11000010)) (fun t => t.bs == 0x0010#16 && t.inputs == []) = true := by
  decide

/-! ### The commands -/

/-- Section 2.1, last row. -/
theorem test_bsNew : gives (exec .bsNew { State.reset with bs := 0xFFFF#16 }) (fun t => t.bs == 0#16) = true := by decide

/-- Section 2.1, row 2. -/
theorem test_bsSet : gives (exec (.bsSet 0x0010#16) { State.reset with bs := 0x0002#16 }) (fun t => t.bs == 0x0012#16) = true := by
  decide

/-- Section 2.1, `cmd BS.CLR 0x0002`. -/
theorem test_bsClr : gives (exec (.bsClr 0x0002#16) { State.reset with bs := 0x0012#16 }) (fun t => t.bs == 0x0010#16) = true := by
  decide

/-- The block with the other value of each two-valued parameter. -/
def other : State := State.resetOf { Params.default with pad := .endOfList, issetMulti := .any }

/-- Section 2.1, `cmd BS.TST 0x0011` and `cmd BS.TST 0x0000`, under ISSET_MULTI = all. -/
theorem test_bsTst_all :
    gives (exec (.bsTst 0x0011#16) { State.reset with bs := 0x0012#16 }) (fun t => t.tst == 0#1) = true ∧
    gives (exec (.bsTst 0x0000#16) { State.reset with bs := 0x0012#16 }) (fun t => t.tst == 1#1) = true := by decide

/-- The same under ISSET_MULTI = any. -/
theorem test_bsTst_any :
    gives (exec (.bsTst 0x0011#16) { other with bs := 0x0012#16 }) (fun t => t.tst == 1#1) = true ∧
    gives (exec (.bsTst 0x0000#16) { other with bs := 0x0012#16 }) (fun t => t.tst == 0#1) = true := by decide

/-- Section 2.2. -/
theorem test_flgFromint : gives (exec (.flgFromint 0x8010#16) State.reset) (fun t => t.flags == 0x010#9) = true ∧
    gives (exec (.flgFromint 0xFE00#16) State.reset) (fun t => t.flags == 0x000#9) = true := by decide

/-- Section 2.2. -/
theorem test_flgPack : gives (exec (.flgPack 0x0012#16) State.reset) (fun t => t.flags == 0x012#9) = true ∧
    gives (exec (.flgPack 0x01FF#16) State.reset) (fun t => t.flags == 0x1FF#9) = true := by decide

/-- Section 2.2, the function values. -/
theorem test_flags_from_int : flagsFromInt (-1) = 511#9 ∧ flagsFromInt 512 = 0#9 ∧ flagsFromInt 65554 = 18#9 := by decide

/-- The list of program P5, steps 2 and 3. -/
def p5List : List OptRecord := [⟨2#8, [0x05#8, 0xB4#8]⟩, ⟨3#8, [0x07#8]⟩]

/-- A list of raw length 40 (section 2.3: kind 254 with 38 bytes). -/
def fullList : List OptRecord := [⟨254#8, List.replicate 38 0#8⟩]

theorem test_optClr : gives (exec .optClr { State.reset with opts := p5List }) (fun t => t.opts == []) = true := by decide

/-- Section 2.3: an EndOfList or NoOp with a value is refused, and so is a record on a full list. -/
theorem test_optPush_refuses :
    gives (exec .optPush { State.reset with owKind := 1#8, owVlen := 1#8 }) (fun t => t.status == 0x14#8) = true ∧
    gives (exec .optPush { State.reset with owKind := 1#8, opts := fullList }) (fun t => t.status == 0x15#8) = true := by
  decide

/-- Program P5, step 3. -/
theorem test_optPush : gives (exec .optPush { State.reset with
    owKind := 3#8, owVlen := 1#8, owval := [(0, 0x07#8)], opts := [⟨2#8, [0x05#8, 0xB4#8]⟩] }) (fun t => t.opts == p5List && t.optcnt == 2#6) = true := by decide

/-- Program P5, step 6. -/
theorem test_optGet : gives (exec (.optGet 1#16) { State.reset with opts := p5List }) (fun t =>
    t.owKind == 3#8 && t.owVlen == 1#8 && t.readReg (.owW 0) == 0x07000000#32 && Memory.lookup t.owval 39 == some 0#8) = true := by
  decide

/-- Program P5, step 7. -/
theorem test_optGet_refuses : gives (exec (.optGet 3#16) { State.reset with opts := p5List }) (fun t =>
    t.status == 0x13#8 && t.owKind == 0#8) = true := by decide

/-- Program P5, step 4, for both values of PAD_BYTE. -/
theorem test_optEnc :
    gives (exec .optEnc { State.reset with opts := p5List }) (fun t => t.optlen == 8#6 && bytes t.optbuf 8 ==
      [some 0x02#8, some 0x04#8, some 0x05#8, some 0xB4#8, some 0x03#8, some 0x03#8, some 0x07#8, some 0x01#8]) = true ∧
    gives (exec .optEnc { other with opts := p5List }) (fun t => Memory.lookup t.optbuf 7 == some 0x00#8) = true := by decide

/-- Program P5, step 9: nothing after EndOfList is examined. -/
theorem test_optDec : gives (exec .optDec { State.reset with
    optlen := 8#6, optbuf := Memory.cells 0 [0x01#8, 0x00#8, 0x02#8, 0x04#8, 0x05#8, 0xB4#8, 0xFF#8, 0xFF#8] }) (fun t => t.opts == [⟨1#8, []⟩, ⟨0#8, []⟩]) = true := by
  decide

/-- Program P5, step 10: a failed decode changes nothing. -/
theorem test_optDec_fails : gives (exec .optDec { State.reset with
    optlen := 6#6, opts := p5List, optbuf := Memory.cells 0 [0x02#8, 0x04#8, 0x00#8, 0x05#8, 0x03#8, 0x01#8] }) (fun t => t.status == 0x31#8 && t.opts == p5List) = true := by decide

/-- Section 2.4, the rows of `123456` and `ffffffffffffff`. -/
theorem test_csum :
    gives (exec .csum { State.reset with seglen := 3#17, segbuf := Memory.cells 0 [0x12#8, 0x34#8, 0x56#8] })
      (fun t => t.csumres == 0x97CB#16) = true ∧
    gives (exec .csum { State.reset with seglen := 7#17, segbuf := Memory.cells 0 (List.replicate 7 0xFF#8) })
      (fun t => t.csumres == 0x00FF#16) = true := by decide

/-- Section 2.4, last row. -/
theorem test_fold : fold 0x1FFFF = 0x0001 := by decide

/-- The options of the scenario of section 1.1. -/
def scenarioOpts : List OptRecord :=
  [⟨1#8, []⟩, ⟨1#8, []⟩, ⟨8#8, [0xC1#8, 0xDD#8, 0x08#8, 0x35#8, 0x15#8, 0xC5#8, 0x18#8, 0xDD#8]⟩]

/-- The descriptor of the scenario of section 1.1. -/
def scenario : State := { State.reset with
  sport := 59700#16, dport := 443#16, seq := 1407506493#32, ack := 3676709599#32, flags := 0x010#9, win := 501#16,
  opts := scenarioOpts, llAttached := 1#1, llFamily := 4#8, llSrc := 0xC0A80120#32, llDst := 0x23A0F03C#32, llProto := 6#8 }

/-- The 32 bytes of the scenario (section 1.1). -/
def scenarioBytes : List Byte :=
  [0xE9#8, 0x34#8, 0x01#8, 0xBB#8, 0x53#8, 0xE4#8, 0xD8#8, 0x3D#8, 0xDB#8, 0x26#8, 0x22#8, 0xDF#8, 0x80#8, 0x10#8, 0x01#8,
   0xF5#8, 0x91#8, 0x56#8, 0x00#8, 0x00#8, 0x01#8, 0x01#8, 0x08#8, 0x0A#8, 0xC1#8, 0xDD#8, 0x08#8, 0x35#8, 0x15#8, 0xC5#8,
   0x18#8, 0xDD#8]

/-- Section 1.1: the bytes of the scenario. -/
theorem test_segEnc : gives (exec .segEnc scenario) (fun t =>
    t.seglen == 32#17 && bytes t.segbuf 32 == scenarioBytes.map some) = true := by decide

/-- Section 2.5, row 3: a payload of odd length. -/
theorem test_segEnc_odd : gives (exec .segEnc { State.reset with
      sport := 1#16, dport := 2#16, seq := 3#32, ack := 4#32, flags := 0x018#9, win := 5#16, paylen := 3#16, paybuf := Memory.cells 0 [0x61#8, 0x62#8, 0x63#8], llAttached := 1#1,
      llFamily := 4#8, llSrc := 0x0A000001#32, llDst := 0x0A000002#32, llProto := 6#8 }) (fun t => t.seglen == 23#17 &&
    bytes t.segbuf 23 == ([0x00#8, 0x01#8, 0x00#8, 0x02#8, 0x00#8, 0x00#8, 0x00#8, 0x03#8, 0x00#8, 0x00#8, 0x00#8, 0x04#8,
      0x50#8, 0x18#8, 0x00#8, 0x05#8, 0xD7#8, 0x55#8, 0x00#8, 0x00#8, 0x61#8, 0x62#8, 0x63#8]).map some) = true := by decide

/-- A state with a segment in SEGBUF. -/
def received (B : List Byte) : State := { State.reset with seglen := BitVec.ofNat 17 B.length, segbuf := Memory.cells 0 B }

/-- Section 2.6, last row. -/
theorem test_segDec : gives (exec .segDec (received scenarioBytes)) (fun t =>
    t.status == 0x00#8 && t.sport == 59700#16 && t.dport == 443#16 && t.seq == 1407506493#32 && t.ack == 3676709599#32 &&
    t.flags == 0x010#9 && t.win == 501#16 && t.opts == scenarioOpts && t.paylen == 0#16) = true := by decide

/-- The base input X of section 2.6. -/
def baseX : List Byte :=
  [0x00#8, 0x01#8, 0x00#8, 0x02#8, 0x00#8, 0x00#8, 0x00#8, 0x03#8, 0x00#8, 0x00#8, 0x00#8, 0x04#8, 0x50#8, 0x10#8, 0x00#8,
   0x05#8, 0xAF#8, 0xC6#8, 0x00#8, 0x00#8]

/-- X with another byte 12 and bytes appended (section 2.6). -/
def withByte12 (b : Byte) (rest : List Byte) : State := received (baseX.set 12 b ++ rest)

/-- Section 2.6: the refusals and their order. -/
theorem test_segDec_refuses :
    gives (exec .segDec (received (baseX.take 19))) (fun t => t.status == 0x21#8) = true ∧
    gives (exec .segDec (withByte12 0x0E#8 [])) (fun t => t.status == 0x22#8) = true ∧
    gives (exec .segDec (withByte12 0x40#8 [])) (fun t => t.status == 0x23#8) = true ∧
    gives (exec .segDec (withByte12 0x60#8 [])) (fun t => t.status == 0x24#8) = true := by decide

/-! ### Requests -/

/-- Section 2.7. -/
theorem test_requests :
    gives (serve (wrReg .sport 65536) State.reset) (fun t => t.status == 0x11#8 && t.sport == 0#16) = true ∧
    gives (serve (wrReg .sport 65535) State.reset) (fun t => t.status == 0x00#8 && t.sport == 65535#16) = true ∧
    gives (serve (wrReg .paylen (-1)) State.reset) (fun t => t.status == 0x13#8) = true ∧
    gives (serve (wrReg .seglen 65547) State.reset) (fun t => t.seglen == 65547#17) = true ∧
    gives (serve (wrReg .flags 24) State.reset) (fun t => t.status == 0x73#8) = true ∧
    gives (serve (.wr 0x0F0 0#64) State.reset) (fun t => t.status == 0x73#8) = true ∧
    gives (serve (.wrb 0 65547#64 0#64) State.reset) (fun t => t.status == 0x13#8) = true := by decide

/-- Section 2.7, the last two rows. -/
theorem test_window :
    gives (serve (wrReg (.owW 0) 3252488245) State.reset) (fun t =>
      bytes t.owval 4 == [some 0xC1#8, some 0xDD#8, some 0x08#8, some 0x35#8]) = true ∧
    gives (serve (rdReg (.owW 1)) { State.reset with owval := Memory.cells 4 [0x15#8, 0xC5#8, 0x18#8, 0xDD#8] })
      (fun t => t.returned == [.reg 365238493#32]) = true := by decide

/-! ### Witnesses: the hypotheses of the obligations can be met -/

/-- The states used below are states the spec allows. -/
theorem reset_ok : State.reset.Ok :=
  ⟨by decide, ⟨.success, rfl⟩, by decide, by decide, by decide, by decide, by decide, by decide, by decide, by decide⟩

theorem scenario_ok : scenario.Ok :=
  ⟨by decide, ⟨.success, rfl⟩, by decide, by decide, by decide, by decide, by decide, by decide, by decide, by decide⟩

theorem received_ok : (received scenarioBytes).Ok :=
  ⟨by decide, ⟨.success, rfl⟩, by decide, by decide, by decide, by decide, by decide, by decide, by decide, by decide⟩

theorem witness_DecodeEncodeRoundTrip : Instr.wf (.flgPack 0x01FF#16) = true ∧ Instr.wf (.bsTst 0xFFFF#16) = true := by decide

theorem witness_EncodeDecodeRoundTrip : decode 0x210001FF#32 = .ok (.flgPack 0x01FF#16) := by decide

/-- One word for each of the five clauses. -/
theorem witness_CommandWordTests :
    (0x00010000#32).extractLsb' 24 8 ∉ commandOpcodes ∧
    ((0x10010000#32).extractLsb' 24 8 ∈ commandOpcodes ∧ (0x10010000#32).extractLsb' 16 8 ≠ 0#8) ∧
    ((0x50000001#32).extractLsb' 24 8 ∈ noOperandOpcodes ∧ (0x50000001#32).extractLsb' 16 8 = 0#8 ∧
      (0x50000001#32).extractLsb' 0 16 ≠ 0#16) ∧
    ((0x21000200#32).extractLsb' 24 8 = 0x21#8 ∧ (0x21000200#32).extractLsb' 16 8 = 0#8 ∧
      ((0x21000200#32).extractLsb' 0 16).extractLsb' 9 7 ≠ 0#7) ∧
    ((0x210001FF#32).extractLsb' 24 8 ∈ commandOpcodes ∧ (0x210001FF#32).extractLsb' 16 8 = 0#8 ∧
      (0x210001FF#32).extractLsb' 24 8 ∉ noOperandOpcodes ∧ ((0x210001FF#32).extractLsb' 0 16).extractLsb' 9 7 = 0#7) := by
  decide

/-- A command waits, in the place `withFetchWord` puts it. -/
theorem witness_StepRunsDecodedCommand :
    (State.reset.withFetchWord 32 0x11000010).inputs = .request (.wr 0x000 0x11000010#64) :: [] ∧
    0 ≤ (0x11000010#64).toInt ∧ (0x11000010#64).toInt ≤ 4294967295 ∧
    decode (BitVec.ofInt 32 (0x11000010#64).toInt) = .ok (.bsSet 0x0010#16) ∧ Instr.wf (.bsSet 0x0010#16) = true := by decide

theorem witness_RequestsServedInOrder :
    State.reset.inputs = [] ∧ (State.reset.issue [.request (.rd 0x004)]).inputs = .request (.rd 0x004) :: [] ∧
    step State.reset = .next State.reset := ⟨by decide, by decide, rfl⟩

theorem witness_CommandAndRefusedWrites :
    (BitVec.ofInt 64 (-1)).toInt < 0 ∧ 4294967295 < (BitVec.ofInt 64 4294967296).toInt ∧
    0 ≤ (0x10000000#64).toInt ∧ (0x10000000#64).toInt ≤ 4294967295 ∧
    decode (BitVec.ofInt 32 (0x10000000#64).toInt) = .ok .bsNew ∧
    0 ≤ (0x14000000#64).toInt ∧ (0x14000000#64).toInt ≤ 4294967295 ∧
    decode (BitVec.ofInt 32 (0x14000000#64).toInt) = .error .unknownOpcode ∧ 0x06C ∈ readOnlyOffsets ∧ 0x0F0 ∉ mappedOffsets ∧
    0x0E8 ∉ mappedOffsets := by decide

/-- A window whose last word has been written. -/
def windowed : State := { State.reset with owval := Memory.cells 36 [0x01#8, 0x02#8, 0x03#8, 0x04#8] }

theorem witness_WindowWordsAliasBytes :
    Memory.lookup windowed.owval (4 * (9 : Fin 10).val) = some 0x01#8 ∧
    Memory.lookup windowed.owval (4 * (9 : Fin 10).val + 1) = some 0x02#8 ∧
    Memory.lookup windowed.owval (4 * (9 : Fin 10).val + 2) = some 0x03#8 ∧
    Memory.lookup windowed.owval (4 * (9 : Fin 10).val + 3) = some 0x04#8 ∧
    (35 < 4 * (9 : Fin 10).val ∨ 4 * (9 : Fin 10).val + 4 ≤ 35) := by decide

theorem witness_RegisterReads : OptsOk fullList ∧ OptsOk State.reset.opts ∧
    (∀ i, i < 4 → Memory.lookup windowed.owval (4 * (9 : Fin 10).val + i) = [0x01#8, 0x02#8, 0x03#8, 0x04#8][i]?) ∧
    [0x01#8, 0x02#8, 0x03#8, 0x04#8].length = 4 := by decide

/-- The last and the first address past each edge, and the edges of the byte. -/
theorem witness_BufferByteWrites :
    (∀ row ∈ spaceTable, row.2.2 ≤ (BitVec.ofInt 64 row.2.2).toInt ∧ 0 ≤ (BitVec.ofInt 64 (row.2.2 - 1)).toInt ∧
      (BitVec.ofInt 64 (row.2.2 - 1)).toInt < row.2.2) ∧
    (BitVec.ofInt 64 (-1)).toInt < 0 ∧ 255 < (256#64).toInt ∧ 0 ≤ (255#64).toInt ∧ (255#64).toInt ≤ 255 ∧ 4 ≤ 4 := by decide

theorem witness_BufferByteReads :
    (3, Space.owval, 40) ∈ spaceTable ∧ 0 ≤ (39#64).toInt ∧ (39#64).toInt < 40 ∧
    Memory.lookup (windowed.buf .owval) (39#64).toInt.toNat = some 0x04#8 := by decide

theorem witness_MemWriteStoresItsBytes :
    (1 : Nat) < [0x05#8, 0xB4#8].length ∧ ((0 : Nat) < 1 ∨ 1 + [0x05#8, 0xB4#8].length ≤ 0) ∧ Space.paybuf ≠ Space.segbuf := by
  decide

theorem witness_ResetValues : State.reset = State.resetOf Params.default := rfl

theorem witness_ResetStateCommands :
    State.resetOf ⟨.endOfList, 0, 65535, .any⟩ = { State.reset with params := ⟨.endOfList, 0, 65535, .any⟩ } := rfl

theorem witness_ResetEvent : (State.reset.issue [.reset]).inputs = .reset :: [] := by decide

/-- A register write and a buffer write that end with a cause code. -/
theorem witness_ErrorsChangeOnlyStatus :
    (after (serve (wrReg .sport (-1)) State.reset)).status ≠ 0x00#8 ∧
    serve (wrReg .sport (-1)) State.reset = .next (after (serve (wrReg .sport (-1)) State.reset)) ∧
    (after (serve (.wrb 3 40#64 0#64) State.reset)).status ≠ 0x00#8 ∧
    serve (.wrb 3 40#64 0#64) State.reset = .next (after (serve (.wrb 3 40#64 0#64) State.reset)) :=
  ⟨by decide, next_after (by decide), by decide, next_after (by decide)⟩

theorem witness_StatusAfterEveryRequest :
    serve (wrReg .seq 7) State.reset = .next (after (serve (wrReg .seq 7) State.reset)) ∧
    serve (.wrb 2 39#64 255#64) State.reset = .next (after (serve (.wrb 2 39#64 255#64) State.reset)) ∧
    serve (rdReg .status) State.reset = .next (after (serve (rdReg .status) State.reset)) ∧
    serve (.rdb 3 36#64) windowed = .next (after (serve (.rdb 3 36#64) windowed)) :=
  ⟨next_after (by decide), next_after (by decide), next_after (by decide), next_after (by decide)⟩

/-- A command that succeeds and one that is refused. -/
theorem witness_CodesOfEachCommand :
    exec .segEnc scenario = .next (after (exec .segEnc scenario)) ∧
    exec .segEnc State.reset = .next (after (exec .segEnc State.reset)) :=
  ⟨next_after (by decide), next_after (by decide)⟩

/-- A good state and a step of it that serves a command. -/
theorem witness_StepKeepsOk :
    (scenario.withFetchWord 32 0x50000000).Ok ∧
    step (scenario.withFetchWord 32 0x50000000) = .next (after (step (scenario.withFetchWord 32 0x50000000))) :=
  ⟨⟨by decide, ⟨.success, rfl⟩, by decide, by decide, by decide, by decide, by decide, by decide, by decide, by decide⟩,
    next_after (by decide)⟩

theorem witness_ResetIsOk : Params.Ok Params.default ∧ Params.Ok ⟨.endOfList, 0, 65535, .any⟩ := by decide

theorem witness_OkStateNeverStops : (scenario.withFetchWord 32 0x50000000).Ok := witness_StepKeepsOk.1

theorem witness_ParametersAreConstant :
    step (other.withFetchWord 32 0x34000000) = .next (after (step (other.withFetchWord 32 0x34000000))) :=
  next_after (by decide)

/-- Commands that change the registers the statement lets them change. -/
theorem witness_WritersOfEachRegister :
    (gives (exec (.bsTst 0#16) State.reset) (fun t => t.tst != 0#1) = true) ∧
    (gives (exec .csum State.reset) (fun t => t.csumres != 0#16) = true) ∧
    (gives (exec (.bsSet 1#16) State.reset) (fun t => t.bs != 0#16) = true) ∧
    (gives (exec (.flgPack 1#16) State.reset) (fun t => t.flags != 0#9) = true) ∧
    (gives (exec .segDec (received scenarioBytes)) (fun t => t.sport != 0#16 && t.opts != []) = true) ∧
    (gives (exec .segEnc scenario) (fun t => t.seglen != 0#17 && t.segbuf != []) = true) ∧
    (gives (exec .optEnc scenario) (fun t => t.optlen != 0#6 && t.optbuf != []) = true) ∧
    (gives (exec (.optGet 2#16) scenario) (fun t => t.owKind != 0#8 && t.owVlen != 0#8 && t.owval != []) = true) ∧
    (gives (exec .segDec { received scenarioBytes with llAttached := 1#1 }) (fun t => t.llAttached == 0#1) = true) := by decide

/-- Both ends of the single bits, and masks of no bit and of two. -/
theorem witness_BitsetTest :
    (0 < 16 ∧ 15 < 16) ∧ (∀ k, k < 16 → (0x0000#16) ≠ BitVec.twoPow 16 k) ∧
    (∀ k, k < 16 → (0x8001#16) ≠ BitVec.twoPow 16 k) ∧ State.reset.params.issetMulti = .all ∧
    other.params.issetMulti = .any := by decide

theorem witness_BitsetLaws : (0x00FF#16) ≠ 0#16 ∧ 0x00FF#16 &&& 0xFF00#16 = 0#16 := by decide

theorem witness_FlagConstructors : (0x01FF#16).toNat < 512 ∧ (0x0000#16).toNat < 512 := by decide

theorem witness_FlagConstructorLaws : (0x01FF#16).toNat < 512 ∧ 511 < 512 := by decide

/-- One window for each of the four clauses, at the edges. -/
theorem witness_OptionPush :
    ((1#8).toNat < 2 ∧ (1#8).toNat ≠ 0) ∧ (2 ≤ (2#8).toNat ∧ 38 < (39#8).toNat) ∧
    (((1#8).toNat < 2 → (0#8).toNat = 0) ∧ (0#8).toNat ≤ 38 ∧ 40 < rawLen fullList + 1) ∧
    (((254#8).toNat < 2 → (38#8).toNat = 0) ∧ (38#8).toNat ≤ 38 ∧ rawLen [] + (2 + (38#8).toNat) ≤ 40) := by decide

theorem witness_OptionGet : OptsOk scenario.opts ∧ scenario.optcnt.toNat ≤ (3#16).toNat ∧
    (2#16).toNat < scenario.optcnt.toNat := by decide

theorem witness_OptionEncodingForm : 2 ≤ (2#8).toNat := by decide

theorem witness_OptionAlignment : OptsOk p5List := by decide

theorem witness_OptionEncodeCommand : OptsOk scenario.opts ∧ OptsOk ({ State.reset with opts := fullList } : State).opts := by
  decide

/-- A length byte of 1, of 2 and more than there is, and good and bad rests. -/
theorem witness_OptionDecoderItems :
    optsDecode [1#8] = .ok [⟨1#8, []⟩] ∧ optsDecode [2#8] = .error .optionOverrun ∧ 2 ≤ (2#8).toNat ∧ (1#8).toNat < 2 ∧
    (2 ≤ (3#8).toNat ∧ ([] : List Byte).length + 2 < (3#8).toNat) ∧ (List.replicate 38 0#8).length ≤ 253 := by decide

/-- The longest field, and a field written whole. -/
theorem witness_OptionDecodeCommand :
    let s : State := { State.reset with optlen := 4#6, optbuf := Memory.cells 0 [0x02#8, 0x04#8, 0x05#8, 0xB4#8] }
    ({ State.reset with optlen := 40#6 } : State).optlen.toNat ≤ 40 ∧ [0x02#8, 0x04#8, 0x05#8, 0xB4#8].length = s.optlen.toNat ∧
    (∀ a, a < 4 → Memory.lookup s.optbuf a = [0x02#8, 0x04#8, 0x05#8, 0xB4#8][a]?) ∧
    optsDecode [0x02#8, 0x04#8, 0x05#8, 0xB4#8] = .ok [⟨0x02#8, [0x05#8, 0xB4#8]⟩] := by decide

theorem witness_DecodedListIsWellFormed : (optsEncode .noOp scenarioOpts).length ≤ 40 ∧
    optsDecode (optsEncode .noOp scenarioOpts) = .ok scenarioOpts := by decide

/-- A list for each of the four clauses (section 2.3). -/
theorem witness_OptionDecodeAfterEncode :
    (OptsOk [⟨1#8, []⟩, ⟨0#8, []⟩, ⟨2#8, [0x05#8, 0xB4#8]⟩] ∧ NoEol [⟨1#8, []⟩] ∧ (0#8 : Byte) = 0#8) ∧
    (OptsOk p5List ∧ NoEol p5List ∧ 0 < (4 - rawLen p5List % 4) % 4) ∧
    (OptsOk scenarioOpts ∧ NoEol scenarioOpts ∧ (4 - rawLen scenarioOpts % 4) % 4 = 0) := by decide

/-- A field without EndOfList and one with it. -/
theorem witness_OptionEncodeAfterDecode :
    (optsDecode [1#8, 1#8, 1#8, 1#8] = .ok (List.replicate 4 ⟨1#8, []⟩) ∧ NoEol (List.replicate 4 ⟨1#8, []⟩)) ∧
    (optsDecode [1#8, 0#8, 0xFF#8, 0xFF#8] = .ok ([⟨1#8, []⟩] ++ [⟨0#8, []⟩]) ∧ [1#8, 0#8, 0xFF#8, 0xFF#8].length % 4 = 0) := by
  decide

theorem witness_OptionWordsPushSizedRecord :
    2 ≤ (8#8).toNat ∧ (List.replicate 9 0xC1DD0835#32).length ≤ 9 ∧ OptsOk State.reset.opts ∧
    rawLen State.reset.opts + (2 + 4 * (List.replicate 9 0xC1DD0835#32).length) ≤ 40 := by decide

theorem witness_ChecksumCommand : (received scenarioBytes).seglen.toNat ≤ 65547 := by decide

theorem witness_ChecksumLaws : [0x1234#16, 0x5678#16].Perm [0x5678#16, 0x1234#16] ∧ [0x12#8, 0x34#8].length % 2 = 0 ∧
    1 ≤ 0xFFFF ∧ 1 ≤ sumWords (padEven [0xFF#8, 0xFF#8]) ∧ sumWords (padEven [0xFF#8, 0xFF#8]) % 65535 = 0 := by decide

/-- A right checksum, and the one wrong checksum the quick test lets through. -/
theorem witness_StoredChecksumCheck :
    ([0x12#8, 0x34#8].length % 2 = 0 ∧ 0xEDCB#16 = checksum ([0x12#8, 0x34#8] ++ [0x00#8, 0x00#8] ++ []) ∧
      checksum ([0x12#8, 0x34#8] ++ be16 0xEDCB#16 ++ []) = 0x0000#16) ∧
    checksum ([0xFF#8, 0xFF#8] ++ [0x00#8, 0x00#8] ++ []) = 0x0000#16 := by decide

/-- A state for each of the three clauses. -/
theorem witness_SerializeRefusals :
    State.reset.llAttached = 0#1 ∧ ({ scenario with llFamily := 6#8 } : State).llFamily ≠ 4#8 ∧
    ({ scenario with opts := [], paylen := 65516#16 } : State).params.maxSegLen <
      ({ scenario with opts := [], paylen := 65516#16 } : State).serializedLength ∧
    ({ scenario with opts := [], paylen := 65516#16 } : State).paylen.toNat ≤ 65527 := by decide

theorem witness_SerializeWritesSegment : scenario.Ok ∧ scenario.CanSerialize := ⟨scenario_ok, by decide⟩

theorem witness_SerializedSegmentProperties :
    scenario.Ok ∧ exec .segEnc scenario = .next (after (exec .segEnc scenario)) ∧
    (after (exec .segEnc scenario)).status = 0x00#8 := ⟨scenario_ok, next_after (by decide), by decide⟩

/-- An input for each of the six clauses (section 2.6). -/
theorem witness_ParseRefusals :
    (baseX.take 19).length < 20 ∧ ((baseX.set 12 0x0E#8).getD 12 0#8).extractLsb' 1 3 ≠ 0#3 ∧
    (((baseX.set 12 0x40#8).getD 12 0#8).extractLsb' 4 4).toNat < 5 ∧
    baseX.length < 4 * (((baseX.set 12 0x60#8).getD 12 0#8).extractLsb' 4 4).toNat ∧
    optsDecode [0x02#8, 0x01#8, 0x00#8, 0x00#8] = .error .optionLength ∧
    optsDecode [0x01#8, 0x01#8, 0x02#8, 0x04#8] = .error .optionOverrun ∧
    (withByte12 0x60#8 [0x02#8, 0x01#8, 0x00#8, 0x00#8]).seglen.toNat ≤ 65547 := by decide

theorem witness_ParseWritesDescriptor :
    (received scenarioBytes).seglen.toNat ≤ 65547 ∧ 20 ≤ scenarioBytes.length ∧
    (scenarioBytes.getD 12 0#8).extractLsb' 1 3 = 0#3 ∧ 5 ≤ ((scenarioBytes.getD 12 0#8).extractLsb' 4 4).toNat ∧
    4 * ((scenarioBytes.getD 12 0#8).extractLsb' 4 4).toNat ≤ scenarioBytes.length ∧
    optsDecode ((scenarioBytes.drop 20).take (4 * 8 - 20)) = .ok scenarioOpts ∧
    Shows (received scenarioBytes).segbuf (received scenarioBytes).seglen.toNat scenarioBytes := by
  refine ⟨by decide, by decide, by decide, by decide, by decide, by decide, by decide, ?_⟩
  intro a b ha hb
  have key : ∀ a < 32, Memory.lookup (received scenarioBytes).segbuf a = scenarioBytes[a]? := by decide
  exact (key a ha).symm.trans hb

theorem witness_ParseIgnoresChecksum :
    exec .segDec (received scenarioBytes) = .next (after (exec .segDec (received scenarioBytes))) := next_after (by decide)

theorem witness_ParseDetachesLowerLayer :
    exec .segDec (received scenarioBytes) = .next (after (exec .segDec (received scenarioBytes))) ∧
    (after (exec .segDec (received scenarioBytes))).status = 0x00#8 := ⟨next_after (by decide), by decide⟩

theorem witness_SerializeThenParse :
    scenario.Ok ∧ scenario.CanSerialize ∧ Written scenario.paybuf scenario.paylen.toNat ∧ NoEol scenario.opts.dropLast ∧
    rawLen scenario.opts % 4 = 0 := ⟨scenario_ok, by decide, by decide, by decide, by decide⟩

/-- The scenario received, and sent again. -/
def resent : State := { after (exec .segDec (received scenarioBytes)) with
  llAttached := 1#1, llFamily := 4#8, llSrc := 0xC0A80120#32, llDst := 0x23A0F03C#32, llProto := 6#8 }

theorem witness_ParseThenSerialize :
    (received scenarioBytes).Ok ∧ Written (received scenarioBytes).segbuf (received scenarioBytes).seglen.toNat ∧
    exec .segDec (received scenarioBytes) = .next (after (exec .segDec (received scenarioBytes))) ∧
    (after (exec .segDec (received scenarioBytes))).status = 0x00#8 ∧
    exec .segEnc resent = .next (after (exec .segEnc resent)) ∧ (after (exec .segEnc resent)).status = 0x00#8 ∧
    NoEol (after (exec .segDec (received scenarioBytes))).opts :=
  ⟨received_ok, by decide, next_after (by decide), by decide, next_after (by decide), by decide, by decide⟩

/-- Two states that differ in what the serializer does not read. -/
theorem witness_SerializeIsPure :
    scenario.Ok ∧ ({ scenario with bs := 1#16, owKind := 7#8 } : State).Ok ∧
    SamePayload scenario { scenario with bs := 1#16, owKind := 7#8 } ∧
    exec .segEnc scenario = .next (after (exec .segEnc scenario)) :=
  ⟨scenario_ok, ⟨by decide, ⟨.success, rfl⟩, by decide, by decide, by decide, by decide, by decide, by decide, by decide,
    by decide⟩, ⟨rfl, fun a ha => absurd ha (Nat.not_lt_zero a)⟩, next_after (by decide)⟩

theorem witness_ParseIsPure :
    Written (received scenarioBytes).segbuf (received scenarioBytes).seglen.toNat ∧
    (received scenarioBytes).seglen = ({ received scenarioBytes with sport := 9#16, tst := 1#1 } : State).seglen ∧
    exec .segDec (received scenarioBytes) = .next (after (exec .segDec (received scenarioBytes))) :=
  ⟨by decide, rfl, next_after (by decide)⟩

end Sys2Proof.Tests
end

section
/-! PROOFS. The state after reset (spec/10_state.md R27, spec/70_reset_and_hazards.md R191). -/

namespace Sys2Proof.Machine

/-- CMD stores nothing (spec/10_state.md R19). -/
@[simp] theorem State.readReg_cmd (s : State) : s.readReg .cmd = 0#32 := rfl

@[simp] theorem State.buf_resetOf (p : Params) (sp : Space) : (State.resetOf p).buf sp = [] := by
  cases sp <;> rfl

/-- After reset no byte of any buffer has been written (spec/10_state.md R24). -/
theorem State.lookup_buf_resetOf (p : Params) (sp : Space) (a : Nat) :
    Memory.lookup ((State.resetOf p).buf sp) a = none := by
  rw [State.buf_resetOf]
  exact Memory.lookup_eq_none [] a (by simp)

/-- OPTCNT is the length of the option list, which reset empties (log 5). -/
@[simp] theorem State.optcnt_resetOf (p : Params) : (State.resetOf p).optcnt = 0#6 := rfl

/-- Settles O15: the stored registers are the fields of `resetOf`; OPTCNT, CMD and the buffers, which are computed from
the state, have each their lemma. -/
theorem resetValues : Obligations.ResetValues := by
  rintro p _ rfl
  exact ⟨rfl, rfl, rfl, rfl, rfl, rfl, rfl, rfl, rfl, rfl, rfl, rfl, rfl, rfl, rfl, rfl, rfl, rfl, rfl,
    State.optcnt_resetOf p, rfl, rfl, rfl, State.readReg_cmd _, State.lookup_buf_resetOf p⟩

end Sys2Proof.Machine
end

section
/-! PROOFS. What a register write does, by the access of the register (spec/20_memory.md R41, R43, R44). -/

namespace Sys2Proof.Machine

/-! ### How a host write ends, in the words of the statements -/

theorem State.raise_eq_ended (s : State) (c : Cause) : s.raise c = s.ended c.code := rfl

theorem State.succeed_eq_ended (s : State) : s.succeed = s.ended 0x00#8 := rfl

/-- The two codes of an illegal command word (spec/30_encoding.md R63). -/
theorem causeOf_code (e : DecodeError) : (causeOf e).code = if e = .unknownOpcode then 0x71#8 else 0x72#8 := by
  cases e <;> rfl

/-! ### The register map (R41) -/

/-- No two registers share an offset, so a register is found at its own. -/
@[simp] theorem regAt_offset_self (r : Register) : regAt r.offset = some r := by
  cases r with
  | owW j => fin_cases j <;> rfl
  | _ => rfl

theorem mappedOffsets_eq : mappedOffsets = Register.all.map Register.offset := by decide

theorem regAt_eq_none_of_unmapped {off : Nat} (h : off ∉ mappedOffsets) : regAt off = none := by
  rw [mappedOffsets_eq] at h
  refine List.find?_eq_none.mpr fun r hr hoff => h ?_
  exact List.mem_map.mpr ⟨r, hr, eq_of_beq hoff⟩

theorem exists_readOnly_of_mem_readOnlyOffsets {off : Nat} (h : off ∈ readOnlyOffsets) :
    ∃ r : Register, r.offset = off ∧ r.access = .readOnly := by
  simp only [readOnlyOffsets, List.mem_cons, List.not_mem_nil, or_false] at h
  obtain rfl | rfl | rfl | rfl | rfl | rfl := h
  · exact ⟨.status, rfl, rfl⟩
  · exact ⟨.tst, rfl, rfl⟩
  · exact ⟨.csumres, rfl, rfl⟩
  · exact ⟨.bs, rfl, rfl⟩
  · exact ⟨.flags, rfl, rfl⟩
  · exact ⟨.optcnt, rfl, rfl⟩

/-! ### `WR` for each kind of target (R43, R44) -/

theorem serve_wr_unmapped {off : Nat} (h : off ∉ mappedOffsets) (v : WData) (s : State) :
    serve (.wr off v) s = .next (s.ended 0x73#8) := by
  simp only [serve, serveWr, regAt_eq_none_of_unmapped h, State.raise_eq_ended, Cause.code]

theorem serve_wr_readOnly {r : Register} (h : r.access = .readOnly) (v : WData) (s : State) :
    serve (.wr r.offset v) s = .next (s.ended 0x73#8) := by
  simp only [serve, serveWr, regAt_offset_self, h, State.raise_eq_ended, Cause.code]

/-- A write to a checked register, where `t` is the state with a value in range stored. -/
theorem serve_wr_checked (r : Register) {top : Nat} {c : Cause} {v : WData} {s t : State}
    (h : r.access = .checked top c) (ht : 0 ≤ v.toInt → s.storeReg r v.toInt.toNat = t) :
    serve (.wr r.offset v) s =
      if v.toInt < 0 ∨ (top : Int) < v.toInt then .next (s.ended c.code) else .next (t.ended 0x00#8) := by
  simp only [serve, serveWr, regAt_offset_self, h, State.raise_eq_ended, State.succeed_eq_ended]
  split
  · rfl
  · rw [ht (by omega)]

theorem serve_wr_cmd (v : WData) (s : State) : serve (.wr 0x000 v) s = writeCmd v s := rfl

/-! ### The command word written to CMD (R44) -/

theorem writeCmd_of_out_of_range {v : WData} (h : v.toInt < 0 ∨ 4294967295 < v.toInt) (s : State) :
    writeCmd v s = .next (s.ended 0x12#8) := if_pos h

theorem writeCmd_of_decode_ok {v : WData} {i : Instr} (h0 : 0 ≤ v.toInt) (h1 : v.toInt ≤ 4294967295)
    (hi : decode (BitVec.ofInt 32 v.toInt) = .ok i) (s : State) : writeCmd v s = exec i s := by
  rw [writeCmd, if_neg (by omega), hi]

theorem writeCmd_of_decode_error {v : WData} {e : DecodeError} (h0 : 0 ≤ v.toInt) (h1 : v.toInt ≤ 4294967295)
    (he : decode (BitVec.ofInt 32 v.toInt) = .error e) (s : State) :
    writeCmd v s = .next (s.ended (if e = .unknownOpcode then 0x71#8 else 0x72#8)) := by
  rw [writeCmd, if_neg (by omega), he, ← causeOf_code, ← State.raise_eq_ended]

/-! ### The value stored (R43) -/

/-- For a value that is not negative, the bits `storeReg` stores are the low bits of the value as a signed integer. -/
theorem ofNat_toNat_of_nonneg {n : Int} (h : 0 ≤ n) (w : Nat) : BitVec.ofNat w n.toNat = BitVec.ofInt w n := by
  rw [← BitVec.ofInt_natCast, Int.toNat_of_nonneg h]

end Sys2Proof.Machine
end

section
/-! PROOFS. The statements about register writes (spec/20_memory.md R43, R44). -/

namespace Sys2Proof.Machine

/-- Settles O8: `writeCmd` in and out of the 32-bit range, and the two ways a target is illegal. -/
theorem commandAndRefusedWrites : Obligations.CommandAndRefusedWrites := by
  intro s v
  simp only [serve_wr_cmd]
  refine ⟨fun h => writeCmd_of_out_of_range h s, fun h0 h1 i hi => writeCmd_of_decode_ok h0 h1 hi s,
    fun h0 h1 e he => writeCmd_of_decode_error h0 h1 he s, ?_⟩
  rintro off (hro | hun)
  · obtain ⟨r, rfl, hr⟩ := exists_readOnly_of_mem_readOnlyOffsets hro
    exact serve_wr_readOnly hr v s
  · exact serve_wr_unmapped hun v s

/-- Settles O9: each row of R43's table is `serve_wr_checked` at its register; what is left is that `storeReg` stores the
row's value. -/
theorem checkedRegisterWrites : Obligations.CheckedRegisterWrites := by
  intro s v
  refine ⟨serve_wr_checked .sport rfl ?_, serve_wr_checked .dport rfl ?_, serve_wr_checked .seq rfl ?_,
    serve_wr_checked .ack rfl ?_, serve_wr_checked .win rfl ?_, serve_wr_checked .urg rfl ?_,
    serve_wr_checked .llAttached rfl ?_, serve_wr_checked .llFamily rfl ?_, serve_wr_checked .llSrc rfl ?_,
    serve_wr_checked .llDst rfl ?_, serve_wr_checked .llProto rfl ?_, serve_wr_checked .paylen rfl ?_,
    serve_wr_checked .seglen rfl ?_, serve_wr_checked .optlen rfl ?_, serve_wr_checked .owKind rfl ?_,
    serve_wr_checked .owVlen rfl ?_, fun j => serve_wr_checked (.owW j) rfl ?_⟩
  all_goals
    intro h
    simp only [State.storeReg, ofNat_toNat_of_nonneg h]

end Sys2Proof.Machine
end

section
/-! PROOFS. Command words field by field: equality, masking, and the row of the opcode map that a word lies in
(spec/30_encoding.md R60, R61). -/

namespace Sys2Proof

/-! ### The three fields of a word -/

/-- A word is fixed by its three fields (R60). -/
theorem word_ext_iff {v w : Word} : v = w ↔ opcOf v = opcOf w ∧ rsvOf v = rsvOf w ∧ immOf v = immOf w := by
  constructor
  · rintro rfl
    exact ⟨rfl, rfl, rfl⟩
  · rintro ⟨hopc, hrsv, himm⟩
    rw [← cmd_fields_append v, hopc, hrsv, himm, cmd_fields_append]

@[simp] theorem opcOf_and (v w : Word) : opcOf (v &&& w) = opcOf v &&& opcOf w := BitVec.extractLsb'_and

@[simp] theorem rsvOf_and (v w : Word) : rsvOf (v &&& w) = rsvOf v &&& rsvOf w := BitVec.extractLsb'_and

@[simp] theorem immOf_and (v w : Word) : immOf (v &&& w) = immOf v &&& immOf w := BitVec.extractLsb'_and

theorem cmd32_eq_iff {opc : Byte} {imm : Half} {w : Word} :
    cmd32 opc imm = w ↔ opcOf w = opc ∧ rsvOf w = 0#8 ∧ immOf w = imm := by
  rw [eq_comm, word_ext_iff, opcOf_cmd32, rsvOf_cmd32, immOf_cmd32]

/-! ### The three masks of R61 -/

/-- The mask of a command without operand keeps the whole word. -/
theorem and_fullMask_eq_iff (opc : Byte) (w : Word) :
    w &&& 0xFFFFFFFF#32 = cmd32 opc 0#16 ↔ cmd32 opc 0#16 = w := by
  rw [show (0xFFFFFFFF#32) = BitVec.allOnes 32 from rfl, BitVec.and_allOnes, eq_comm]

/-- The mask of a command with a 16-bit operand keeps OPC and RSV. -/
theorem and_halfMask_eq_iff (opc : Byte) (w : Word) :
    w &&& 0xFFFF0000#32 = cmd32 opc 0#16 ↔ cmd32 opc (immOf w) = w := by
  have hopc : opcOf 0xFFFF0000#32 = BitVec.allOnes 8 := rfl
  have hrsv : rsvOf 0xFFFF0000#32 = BitVec.allOnes 8 := rfl
  have himm : immOf 0xFFFF0000#32 = 0#16 := rfl
  rw [eq_comm, cmd32_eq_iff, cmd32_eq_iff]
  simp only [opcOf_and, rsvOf_and, immOf_and, hopc, hrsv, himm, BitVec.and_allOnes, BitVec.and_zero, and_true]

/-- The bits 15:9 of an operand, under their mask and as a field. -/
theorem and_packMask_eq_zero_iff (imm : Half) : imm &&& 0xFE00#16 = 0#16 ↔ imm.extractLsb' 9 7 = 0#7 := by
  have hsplit : imm.extractLsb' 9 7 ++ imm.extractLsb' 0 9 = imm := by
    exact (BitVec.extractLsb'_append_extractLsb'_eq_extractLsb' (by rfl)).trans BitVec.extractLsb'_eq_self
  have hmask : (0xFE00#16) = BitVec.allOnes 7 ++ 0#9 := rfl
  have hzero : (0#16) = 0#7 ++ 0#9 := rfl
  conv_lhs => rw [← hsplit, hmask, hzero, BitVec.and_append, BitVec.and_allOnes, BitVec.and_zero]
  exact BitVec.append_left_inj _

/-- The mask of FLG.PACK keeps OPC, RSV and IMM[15:9]. -/
theorem and_nineMask_eq_iff (opc : Byte) (w : Word) :
    w &&& 0xFFFFFE00#32 = cmd32 opc 0#16 ↔ (immOf w).extractLsb' 9 7 = 0#7 ∧ cmd32 opc (immOf w) = w := by
  have hopc : opcOf 0xFFFFFE00#32 = BitVec.allOnes 8 := rfl
  have hrsv : rsvOf 0xFFFFFE00#32 = BitVec.allOnes 8 := rfl
  have himm : immOf 0xFFFFFE00#32 = 0xFE00#16 := rfl
  rw [eq_comm, cmd32_eq_iff, cmd32_eq_iff]
  simp only [opcOf_and, rsvOf_and, immOf_and, hopc, hrsv, himm, BitVec.and_allOnes, and_packMask_eq_zero_iff]
  tauto

/-! ### The opcode map by operand form -/

/-- What a form says of the opcode it stands at in the map: which operands it admits (the column IMM of R61), and that the
word of its command is the opcode with that operand. -/
def OperandForm.FitsRow (opc : Byte) : OperandForm → Prop
  | .none i => opc ∈ Machine.noOperandOpcodes ∧ i.wf = true ∧ encode i = cmd32 opc 0#16
  | .half mk => opc ∉ Machine.noOperandOpcodes ∧ opc ≠ 0x21#8 ∧
      ∀ imm, (mk imm).wf = true ∧ encode (mk imm) = cmd32 opc imm
  | .nine mk => opc ∉ Machine.noOperandOpcodes ∧ opc = 0x21#8 ∧
      ∀ imm, ((mk imm).wf = true ↔ imm.extractLsb' 9 7 = 0#7) ∧ encode (mk imm) = cmd32 opc imm

theorem fitsRow_of_mem_opcodeRows {row : Byte × OperandForm} (h : row ∈ opcodeRows) : row.2.FitsRow row.1 := by
  simp only [opcodeRows, List.mem_cons, List.not_mem_nil, or_false] at h
  rcases h with rfl | rfl | rfl | rfl | rfl | rfl | rfl | rfl | rfl | rfl | rfl | rfl | rfl | rfl <;>
    simp [OperandForm.FitsRow, Machine.noOperandOpcodes, Instr.wf, encode]

theorem fst_mem_commandOpcodes {row : Byte × OperandForm} (h : row ∈ opcodeRows) : row.1 ∈ Machine.commandOpcodes :=
  List.mem_map_of_mem (f := Prod.fst) h

theorem opcodeMap_eq_none_iff {opc : Byte} : opcodeMap opc = none ↔ opc ∉ Machine.commandOpcodes := by
  obtain ⟨hmem, hnone⟩ | ⟨row, hrow, rfl, hsome⟩ := opcodeMap_cases opc
  · simp [hmem, hnone]
  · simp [fst_mem_commandOpcodes hrow, hsome]

theorem fitsRow_of_opcodeMap {opc : Byte} {f : OperandForm} (h : opcodeMap opc = some f) : f.FitsRow opc := by
  obtain ⟨-, hnone⟩ | ⟨row, hrow, rfl, hsome⟩ := opcodeMap_cases opc
  · simp [hnone] at h
  · obtain rfl := Option.some.inj (hsome.symm.trans h)
    exact fitsRow_of_mem_opcodeRows hrow

theorem exists_opcodeMap_eq_some {opc : Byte} (h : opc ∈ Machine.commandOpcodes) : ∃ f, opcodeMap opc = some f :=
  Option.ne_none_iff_exists'.mp fun hnone => opcodeMap_eq_none_iff.mp hnone h

end Sys2Proof
end

section
/-! PROOFS. The decoder: one lemma for each outcome of the tests of spec/30_encoding.md R63. -/

namespace Sys2Proof

/-! ### The tests on IMM -/

theorem OperandForm.read_ne_unknownOpcode (f : OperandForm) (imm : Half) : f.read imm ≠ .error .unknownOpcode := by
  cases f with
  | none i => simp only [OperandForm.read]; split <;> simp
  | half mk => simp [OperandForm.read]
  | nine mk => simp only [OperandForm.read]; split <;> simp

/-- A form in its row gives only well-formed commands, whose word holds the operand read. -/
theorem OperandForm.wf_and_encode_of_read {f : OperandForm} {opc : Byte} {imm : Half} {i : Instr} (hf : f.FitsRow opc)
    (h : f.read imm = .ok i) : i.wf = true ∧ encode i = cmd32 opc imm := by
  cases f with
  | none j =>
    obtain ⟨-, hwf, henc⟩ := hf
    by_cases himm : imm = 0#16
    · obtain rfl : j = i := by simpa [OperandForm.read, himm] using h
      exact ⟨hwf, himm ▸ henc⟩
    · simp [OperandForm.read, himm] at h
  | half mk =>
    obtain ⟨-, -, hmk⟩ := hf
    obtain rfl : mk imm = i := by simpa [OperandForm.read] using h
    exact hmk imm
  | nine mk =>
    obtain ⟨-, -, hmk⟩ := hf
    by_cases hpack : imm.extractLsb' 9 7 = 0#7
    · obtain rfl : mk imm = i := by simpa [OperandForm.read, hpack] using h
      exact ⟨(hmk imm).1.mpr hpack, (hmk imm).2⟩
    · simp [OperandForm.read, hpack] at h

theorem OperandForm.read_noOperand {f : OperandForm} {opc : Byte} {imm : Half} (hf : f.FitsRow opc)
    (hopc : opc ∈ Machine.noOperandOpcodes) (himm : imm ≠ 0#16) : f.read imm = .error .operandBits := by
  cases f with
  | none i => simp [OperandForm.read, himm]
  | half mk => exact absurd hopc hf.1
  | nine mk => exact absurd hopc hf.1

theorem OperandForm.read_pack {f : OperandForm} {imm : Half} (hf : f.FitsRow 0x21#8)
    (himm : imm.extractLsb' 9 7 ≠ 0#7) : f.read imm = .error .packBits := by
  cases f with
  | none i => exact absurd hf.1 (by decide)
  | half mk =>
    obtain ⟨-, hne, -⟩ := hf
    exact absurd rfl hne
  | nine mk => simp [OperandForm.read, himm]

/-- An operand that passes the test of its row is read. -/
theorem OperandForm.exists_read_ok {f : OperandForm} {opc : Byte} {imm : Half} (hf : f.FitsRow opc)
    (hnone : opc ∈ Machine.noOperandOpcodes → imm = 0#16) (hpack : opc = 0x21#8 → imm.extractLsb' 9 7 = 0#7) :
    ∃ i, f.read imm = .ok i := by
  cases f with
  | none i => exact ⟨i, by simp [OperandForm.read, hnone hf.1]⟩
  | half mk => exact ⟨mk imm, rfl⟩
  | nine mk =>
    obtain ⟨-, hopc, -⟩ := hf
    exact ⟨mk imm, by simp [OperandForm.read, hpack hopc]⟩

/-! ### The tests in their order -/

theorem decode_of_opcodeMap {w : Word} {f : OperandForm} (h : opcodeMap (opcOf w) = some f) :
    decode w = if rsvOf w ≠ 0#8 then .error .reservedBits else f.read (immOf w) := by
  rw [decode, h]

theorem decode_eq_unknownOpcode_iff {w : Word} :
    decode w = .error .unknownOpcode ↔ opcOf w ∉ Machine.commandOpcodes := by
  rw [← opcodeMap_eq_none_iff]
  cases h : opcodeMap (opcOf w) with
  | none => simp [decode, h]
  | some f =>
    rw [decode_of_opcodeMap h]
    split <;> simp [OperandForm.read_ne_unknownOpcode]

theorem decode_of_rsv_ne_zero {w : Word} (hopc : opcOf w ∈ Machine.commandOpcodes) (hrsv : rsvOf w ≠ 0#8) :
    decode w = .error .reservedBits := by
  obtain ⟨f, hf⟩ := exists_opcodeMap_eq_some hopc
  rw [decode_of_opcodeMap hf, if_pos hrsv]

/-- With RSV 0 a known opcode leaves the decision to the form of its row. -/
theorem exists_fitsRow_decode_eq_read {w : Word} (hopc : opcOf w ∈ Machine.commandOpcodes) (hrsv : rsvOf w = 0#8) :
    ∃ f : OperandForm, f.FitsRow (opcOf w) ∧ decode w = f.read (immOf w) := by
  obtain ⟨f, hf⟩ := exists_opcodeMap_eq_some hopc
  exact ⟨f, fitsRow_of_opcodeMap hf, by rw [decode_of_opcodeMap hf, if_neg (not_not.mpr hrsv)]⟩

theorem decode_noOperand_of_imm_ne_zero {w : Word} (hopc : opcOf w ∈ Machine.noOperandOpcodes) (hrsv : rsvOf w = 0#8)
    (himm : immOf w ≠ 0#16) : decode w = .error .operandBits := by
  have hsub : Machine.noOperandOpcodes ⊆ Machine.commandOpcodes := by decide
  obtain ⟨f, hf, hdec⟩ := exists_fitsRow_decode_eq_read (hsub hopc) hrsv
  rw [hdec, OperandForm.read_noOperand hf hopc himm]

theorem decode_pack_of_high_imm_ne_zero {w : Word} (hopc : opcOf w = 0x21#8) (hrsv : rsvOf w = 0#8)
    (himm : (immOf w).extractLsb' 9 7 ≠ 0#7) : decode w = .error .packBits := by
  obtain ⟨f, hf, hdec⟩ := exists_fitsRow_decode_eq_read (hopc ▸ by decide) hrsv
  rw [hdec, OperandForm.read_pack (hopc ▸ hf) himm]

theorem exists_decode_ok {w : Word} (hopc : opcOf w ∈ Machine.commandOpcodes) (hrsv : rsvOf w = 0#8)
    (hnone : opcOf w ∈ Machine.noOperandOpcodes → immOf w = 0#16)
    (hpack : opcOf w = 0x21#8 → (immOf w).extractLsb' 9 7 = 0#7) : ∃ i, decode w = .ok i := by
  obtain ⟨f, hf, hdec⟩ := exists_fitsRow_decode_eq_read hopc hrsv
  rw [hdec]
  exact OperandForm.exists_read_ok hf hnone hpack

/-! ### Decoder and encoder -/

/-- The words that decode to a command: its own, when it is well-formed. -/
theorem decode_eq_ok_iff {w : Word} {i : Instr} : decode w = .ok i ↔ i.wf = true ∧ encode i = w := by
  constructor
  · intro h
    cases hmap : opcodeMap (opcOf w) with
    | none => simp [decode, hmap] at h
    | some f =>
      rw [decode_of_opcodeMap hmap] at h
      by_cases hrsv : rsvOf w = 0#8
      · rw [if_neg (not_not.mpr hrsv)] at h
        obtain ⟨hwf, henc⟩ := OperandForm.wf_and_encode_of_read (fitsRow_of_opcodeMap hmap) h
        exact ⟨hwf, henc.trans (cmd32_eq_iff.mpr ⟨rfl, hrsv, rfl⟩)⟩
      · simp [hrsv] at h
  · rintro ⟨hwf, rfl⟩
    cases i with
    | flgPack b => simpa [decode, encode, opcodeMap, OperandForm.read, Instr.wf] using hwf
    | _ => simp [decode, encode, opcodeMap, OperandForm.read]

end Sys2Proof
end

section
/-! PROOFS. The statements about command words (spec/30_encoding.md R61, R63). -/

namespace Sys2Proof.Machine

/-! ### A 32-bit word written to CMD -/

/-- A 32-bit word as the integer of a host request is not negative. -/
theorem toInt_setWidth_word (w : Word) : (w.setWidth 64 : WData).toInt = w.toNat := by
  have hlt := w.isLt
  have hnat : (w.setWidth 64).toNat = w.toNat := by
    rw [BitVec.toNat_setWidth, Nat.mod_eq_of_lt (by omega)]
  rw [BitVec.toInt_eq_toNat_of_lt (by omega), hnat]

theorem ofInt_toInt_setWidth_word (w : Word) : BitVec.ofInt 32 (w.setWidth 64 : WData).toInt = w := by
  rw [toInt_setWidth_word, BitVec.ofInt_natCast, BitVec.ofNat_toNat, BitVec.setWidth_eq]

/-- A 32-bit word is in the range of CMD (spec/20_memory.md R44). -/
theorem toInt_setWidth_word_bounds (w : Word) :
    0 ≤ (w.setWidth 64 : WData).toInt ∧ (w.setWidth 64 : WData).toInt ≤ 4294967295 := by
  have hlt := w.isLt
  rw [toInt_setWidth_word]
  omega

theorem serve_wr_cmd_of_decode_ok {w : Word} {i : Instr} (h : decode w = .ok i) (s : State) :
    serve (.wr 0x000 (w.setWidth 64)) s = exec i s := by
  obtain ⟨h0, h1⟩ := toInt_setWidth_word_bounds w
  rw [serve_wr_cmd, writeCmd_of_decode_ok h0 h1 (by rwa [ofInt_toInt_setWidth_word])]

theorem serve_wr_cmd_of_decode_error {w : Word} {e : DecodeError} (h : decode w = .error e) (s : State) :
    serve (.wr 0x000 (w.setWidth 64)) s = .next (s.ended (if e = .unknownOpcode then 0x71#8 else 0x72#8)) := by
  obtain ⟨h0, h1⟩ := toInt_setWidth_word_bounds w
  rw [serve_wr_cmd, writeCmd_of_decode_error h0 h1 (by rwa [ofInt_toInt_setWidth_word])]

/-! ### The rows of the opcode map (R61) -/

/-- A row of R61 whose operand must be 0. -/
theorem and_fullMask_eq_iff_decode (opc : Byte) {i : Instr} (hwf : i.wf = true) (henc : encode i = cmd32 opc 0#16)
    (w : Word) : w &&& 0xFFFFFFFF#32 = cmd32 opc 0#16 ↔ decode w = .ok i := by
  rw [decode_eq_ok_iff, and_fullMask_eq_iff, henc, and_iff_right hwf]

/-- A row of R61 with any 16-bit operand. -/
theorem and_halfMask_eq_iff_decode (opc : Byte) {mk : Half → Instr} (hwf : ∀ imm, (mk imm).wf = true)
    (henc : ∀ imm, encode (mk imm) = cmd32 opc imm) (w : Word) :
    w &&& 0xFFFF0000#32 = cmd32 opc 0#16 ↔ decode w = .ok (mk (immOf w)) := by
  rw [decode_eq_ok_iff, and_halfMask_eq_iff, henc, and_iff_right (hwf _)]

/-- The row of FLG.PACK. -/
theorem and_nineMask_eq_iff_decode (w : Word) :
    w &&& 0xFFFFFE00#32 = cmd32 0x21#8 0#16 ↔ decode w = .ok (.flgPack (immOf w)) := by
  rw [decode_eq_ok_iff, and_nineMask_eq_iff, encode, Instr.wf, beq_iff_eq]

/-! ### The statements -/

/-- Settles O3: the four refusals of R63 and the decoded command, each at the word as it is written to CMD. -/
theorem commandWordTests : Obligations.CommandWordTests := by
  intro w s
  refine ⟨fun hopc => ?_, fun hopc hrsv => ?_, fun hopc hrsv himm => ?_, fun hopc hrsv himm => ?_,
    fun hopc hrsv hnone hpack => ?_⟩
  · exact serve_wr_cmd_of_decode_error (decode_eq_unknownOpcode_iff.mpr hopc) s
  · exact serve_wr_cmd_of_decode_error (decode_of_rsv_ne_zero hopc hrsv) s
  · exact serve_wr_cmd_of_decode_error (decode_noOperand_of_imm_ne_zero hopc hrsv himm) s
  · exact serve_wr_cmd_of_decode_error (decode_pack_of_high_imm_ne_zero hopc hrsv himm) s
  · obtain ⟨i, hi⟩ := exists_decode_ok hopc hrsv hnone hpack
    obtain ⟨hwf, henc⟩ := decode_eq_ok_iff.mp hi
    exact ⟨i, hwf, henc, serve_wr_cmd_of_decode_ok hi s⟩

/-- Settles O4: every row is the lemma of its mask, and the unknown opcodes are those without a row. -/
theorem opcodeMapRows : Obligations.OpcodeMapRows := by
  intro w
  exact ⟨and_fullMask_eq_iff_decode 0x10#8 rfl rfl w,
    and_halfMask_eq_iff_decode 0x11#8 (fun _ => rfl) (fun _ => rfl) w,
    and_halfMask_eq_iff_decode 0x12#8 (fun _ => rfl) (fun _ => rfl) w,
    and_halfMask_eq_iff_decode 0x13#8 (fun _ => rfl) (fun _ => rfl) w,
    and_halfMask_eq_iff_decode 0x20#8 (fun _ => rfl) (fun _ => rfl) w,
    and_nineMask_eq_iff_decode w,
    and_fullMask_eq_iff_decode 0x30#8 rfl rfl w,
    and_fullMask_eq_iff_decode 0x31#8 rfl rfl w,
    and_halfMask_eq_iff_decode 0x32#8 (fun _ => rfl) (fun _ => rfl) w,
    and_fullMask_eq_iff_decode 0x33#8 rfl rfl w,
    and_fullMask_eq_iff_decode 0x34#8 rfl rfl w,
    and_fullMask_eq_iff_decode 0x40#8 rfl rfl w,
    and_fullMask_eq_iff_decode 0x50#8 rfl rfl w,
    and_fullMask_eq_iff_decode 0x51#8 rfl rfl w,
    decode_eq_unknownOpcode_iff.symm⟩

end Sys2Proof.Machine
end

section
/-! PROOFS. A command word as opcode word and operand, and the bit algebra of the container (spec/30_encoding.md R61,
spec/41_bitset.md R91 to R93). -/

namespace Sys2Proof

/-- The operand stands in the low half of the command word (R61). -/
theorem cmd32_eq_or_setWidth (opc : Byte) (imm : Half) : cmd32 opc imm = cmd32 opc 0#16 ||| imm.setWidth 32 := by
  have hwide : imm.setWidth 32 = 0#8 ++ 0#8 ++ imm := BitVec.setWidth_eq_append (by decide)
  rw [hwide, cmd32, cmd32, BitVec.or_append, BitVec.or_append, BitVec.or_zero, BitVec.or_zero, BitVec.zero_or]

namespace Machine

/-! ### Setting and clearing -/

/-- The 16-bit mask of R92 is already the width of BS. -/
theorem bitsClr_eq_and_not (v m : Half) : bitsClr v m = v &&& ~~~m := by
  rw [bitsClr, show (0xFFFF#16) = BitVec.allOnes 16 from rfl, BitVec.and_allOnes]

theorem and_not_eq_self_of_disjoint {m n : Half} (h : m &&& n = 0#16) : m &&& ~~~n = m := by
  calc m &&& ~~~n = m &&& n ||| m &&& ~~~n := by rw [h, BitVec.zero_or]
    _ = m &&& (n ||| ~~~n) := BitVec.and_or_distrib_left.symm
    _ = m := by rw [BitVec.or_not_self, BitVec.and_allOnes]

theorem bitsSet_and_not (v m : Half) : bitsSet v m &&& ~~~m = v &&& ~~~m := by
  rw [bitsSet, BitVec.and_or_distrib_right, BitVec.and_not_self]
  exact BitVec.or_zero

theorem bitsClr_and_not (v m : Half) : bitsClr v m &&& ~~~m = v &&& ~~~m := by
  rw [bitsClr_eq_and_not, BitVec.and_assoc, BitVec.and_self]

/-- After a set every bit of the mask is 1. -/
theorem bitsSet_and_mask (v m : Half) : bitsSet v m &&& m = m := by
  apply BitVec.eq_of_getLsbD_eq
  intro i _
  rw [bitsSet, BitVec.getLsbD_and, BitVec.getLsbD_or]
  cases m.getLsbD i <;> simp

/-- After a clear every bit of the mask is 0. -/
theorem bitsClr_and_mask (v m : Half) : bitsClr v m &&& m = 0#16 := by
  rw [bitsClr_eq_and_not, BitVec.and_assoc, BitVec.not_and_self]
  exact BitVec.and_zero

theorem bitsSet_comm (v m n : Half) : bitsSet (bitsSet v m) n = bitsSet (bitsSet v n) m := by
  simp only [bitsSet, BitVec.or_assoc, BitVec.or_comm m n]

theorem bitsClr_bitsSet_of_disjoint (v : Half) {m n : Half} (h : m &&& n = 0#16) :
    bitsClr (bitsSet v m) n = bitsSet (bitsClr v n) m := by
  simp only [bitsClr_eq_and_not, bitsSet, BitVec.and_or_distrib_right, and_not_eq_self_of_disjoint h]

theorem bitsSet_idem (v m : Half) : bitsSet (bitsSet v m) m = bitsSet v m := by
  simp only [bitsSet, BitVec.or_assoc, BitVec.or_self]

theorem bitsClr_idem (v m : Half) : bitsClr (bitsClr v m) m = bitsClr v m := by
  simp only [bitsClr_eq_and_not, BitVec.and_assoc, BitVec.and_self]

/-! ### Testing -/

/-- A mask with one bit is a power of two. -/
theorem exists_twoPow_of_isSingleBit {m : Half} (h : isSingleBit m = true) : ∃ k < 16, m = BitVec.twoPow 16 k := by
  rw [isSingleBit, beq_iff_eq, List.countP_eq_length_filter, List.length_eq_one_iff] at h
  obtain ⟨k, hk⟩ := h
  have hbit (i : Nat) : i < 16 ∧ m.getLsbD i = true ↔ i = k := by
    rw [← List.mem_range, ← List.mem_filter (p := fun i => m.getLsbD i), hk, List.mem_singleton]
  obtain ⟨hlt, -⟩ := (hbit k).mpr rfl
  refine ⟨k, hlt, BitVec.eq_of_getLsbD_eq fun i hi => ?_⟩
  rw [BitVec.getLsbD_twoPow, decide_eq_true hlt, Bool.true_and, Bool.eq_iff_iff, decide_eq_true_iff, eq_comm (a := k),
    ← hbit i, and_iff_right hi]

theorem twoPow_ne_zero {k : Nat} (h : k < 16) : BitVec.twoPow 16 k ≠ 0#16 := by
  intro h0
  have hbit : (BitVec.twoPow 16 k).getLsbD k = false := by rw [h0, BitVec.getLsbD_zero]
  simp [h] at hbit

/-- For a single bit the two readings of ISSET_MULTI agree (R93). -/
theorem and_eq_mask_iff_ne_zero_of_isSingleBit {m : Half} (h : isSingleBit m = true) (v : Half) :
    v &&& m = m ↔ v &&& m ≠ 0#16 := by
  obtain ⟨k, hk, rfl⟩ := exists_twoPow_of_isSingleBit h
  have hne := twoPow_ne_zero hk
  rw [BitVec.and_twoPow]
  split
  · simp [hne]
  · simp [hne.symm]

/-- Under "all" the answer is whether the mask is contained in the set, for every mask. -/
theorem bitsTst_all (v m : Half) : bitsTst .all v m = decide (v &&& m = m) := by
  rw [Bool.eq_iff_iff]
  cases h : isSingleBit m with
  | true => simp [bitsTst, h, and_eq_mask_iff_ne_zero_of_isSingleBit h]
  | false => simp [bitsTst, h]

/-- Under "any" the answer is whether the mask meets the set, for every mask. -/
theorem bitsTst_any (v m : Half) : bitsTst .any v m = decide (v &&& m ≠ 0#16) := by
  rw [Bool.eq_iff_iff]
  simp [bitsTst]

/-- The answer for a single bit is that bit, under either reading. -/
theorem bitsTst_twoPow (multi : IssetMulti) (v : Half) {k : Nat} (hk : k < 16) :
    bitsTst multi v (BitVec.twoPow 16 k) = v.getLsbD k := by
  have hne := twoPow_ne_zero hk
  cases multi with
  | all =>
    rw [bitsTst_all, BitVec.and_twoPow]
    cases v.getLsbD k <;> simp [hne.symm]
  | any =>
    rw [bitsTst_any, BitVec.and_twoPow]
    cases v.getLsbD k <;> simp [hne]

theorem bitsTst_bitsSet {multi : IssetMulti} {m : Half} (h : m ≠ 0#16 ∨ multi = .all) (v : Half) :
    bitsTst multi (bitsSet v m) m = true := by
  cases multi with
  | all => rw [bitsTst_all, bitsSet_and_mask, decide_eq_true rfl]
  | any =>
    have hm : m ≠ 0#16 := h.resolve_right (by decide)
    rw [bitsTst_any, bitsSet_and_mask, decide_eq_true hm]

theorem bitsTst_bitsClr (multi : IssetMulti) {m : Half} (h : m ≠ 0#16) (v : Half) :
    bitsTst multi (bitsClr v m) m = false := by
  cases multi with
  | all => rw [bitsTst_all, bitsClr_and_mask, decide_eq_false h.symm]
  | any => rw [bitsTst_any, bitsClr_and_mask, decide_eq_false (not_not.mpr rfl)]

end Machine
end Sys2Proof
end

section
/-! PROOFS. The statements about the bit-flag container (spec/41_bitset.md R90 to R94). -/

namespace Sys2Proof.Machine

/-! ### What each command does -/

theorem exec_bsNew (s : State) : exec .bsNew s = .next (({ s with bs := 0#16 } : State).ended 0x00#8) := rfl

theorem exec_bsSet (mask : Half) (s : State) :
    exec (.bsSet mask) s = .next (({ s with bs := bitsSet s.bs mask } : State).ended 0x00#8) := rfl

theorem exec_bsClr (mask : Half) (s : State) :
    exec (.bsClr mask) s = .next (({ s with bs := bitsClr s.bs mask } : State).ended 0x00#8) := rfl

theorem exec_bsTst {mask : Half} {s : State} {answer : Bool} (h : bitsTst s.params.issetMulti s.bs mask = answer) :
    exec (.bsTst mask) s = .next (({ s with tst := BitVec.ofBool answer } : State).ended 0x00#8) := by
  subst h
  rfl

/-! ### The statements -/

/-- Settles O27: `bitsTst` at a single bit and under the two readings; the statement's last two clauses hold for single
bits as well. -/
theorem bitsetTest : Obligations.BitsetTest := by
  intro s
  refine ⟨fun m => cmd32_eq_or_setWidth 0x13#8 m, fun k hk => exec_bsTst (bitsTst_twoPow _ _ hk),
    fun m _ hall => exec_bsTst ?_, fun m _ hany => exec_bsTst ?_⟩
  · rw [hall, bitsTst_all]
  · rw [hany, bitsTst_any]

/-- Settles O28: one lemma for each law. -/
theorem bitsetLaws : Obligations.BitsetLaws := by
  intro v m n multi
  exact ⟨bitsSet_and_not v m, bitsClr_and_not v m, fun h => bitsTst_bitsSet h v, fun h => bitsTst_bitsClr multi h v,
    bitsSet_comm v m n, bitsClr_bitsSet_of_disjoint v, bitsSet_idem v m, bitsClr_idem v m⟩

/-- Settles O26: the words are opcode word and operand, and BS.CLR's complement is `bitsClr_eq_and_not`. -/
theorem bitsetCommands : Obligations.BitsetCommands := by
  intro s mask
  refine ⟨rfl, cmd32_eq_or_setWidth 0x11#8 mask, cmd32_eq_or_setWidth 0x12#8 mask, exec_bsNew s, exec_bsSet mask s, ?_⟩
  rw [exec_bsClr, bitsClr_eq_and_not]

end Sys2Proof.Machine
end

section
/-! PROOFS. The control-flag set: its masks and accessors, and a flag set built from nine booleans or from an integer
(spec/42_flags.md R100 to R104, R106). -/

namespace Sys2Proof.Machine

/-! ### The nine flags and their bits (R100) -/

/-- The declaration order runs from bit 8 down to bit 0. -/
theorem ControlFlag.order_getElem? (x : ControlFlag) : ControlFlag.order[8 - x.bit]? = some x := by
  cases x <;> rfl

theorem ControlFlag.mem_order (x : ControlFlag) : x ∈ ControlFlag.order := List.mem_of_getElem? x.order_getElem?

@[simp] theorem ControlFlag.bit_inj {x y : ControlFlag} : x.bit = y.bit ↔ x = y := by
  refine ⟨fun h => Option.some.inj ?_, congrArg _⟩
  rw [← x.order_getElem?, h, y.order_getElem?]

@[simp] theorem ControlFlag.bit_lt (x : ControlFlag) : x.bit < 9 := by
  cases x <;> decide

theorem ControlFlag.exists_bit_eq {i : Nat} (h : i < 9) : ∃ x : ControlFlag, x.bit = i := by
  have hall : ∀ i < 9, ∃ x ∈ ControlFlag.order, x.bit = i := by decide
  obtain ⟨x, -, hx⟩ := hall i h
  exact ⟨x, hx⟩

theorem ControlFlag.mask_eq_twoPow (x : ControlFlag) : x.mask = BitVec.twoPow 9 x.bit := by
  cases x <;> rfl

theorem ControlFlag.mask_ne_zero (x : ControlFlag) : x.mask ≠ 0#9 := by
  cases x <;> decide

/-- A mask holds its own flag's bit and no other. -/
@[simp] theorem ControlFlag.mask_getElem_bit (x y : ControlFlag) (h : y.bit < 9) :
    x.mask[y.bit]'h = decide (y = x) := by
  simp [x.mask_eq_twoPow, eq_comm]

/-! ### The accessors (R103, R104) -/

theorem flagIsSet_iff (f : BitVec 9) (x : ControlFlag) : flagIsSet f x = true ↔ f &&& x.mask ≠ 0#9 := bne_iff_ne

theorem flagIsSet_eq_getLsbD (f : BitVec 9) (x : ControlFlag) : flagIsSet f x = f.getLsbD x.bit := by
  rw [flagIsSet, x.mask_eq_twoPow, BitVec.and_twoPow, ← x.mask_eq_twoPow]
  cases f.getLsbD x.bit <;> simp [x.mask_ne_zero]

/-- Every bit of a flag value is some flag's. -/
theorem eq_iff_flagIsSet_eq (f g : BitVec 9) : f = g ↔ ∀ x, flagIsSet f x = flagIsSet g x := by
  refine ⟨fun h x => by rw [h], fun h => BitVec.eq_of_getLsbD_eq fun i hi => ?_⟩
  obtain ⟨x, rfl⟩ := ControlFlag.exists_bit_eq hi
  rw [← flagIsSet_eq_getLsbD, ← flagIsSet_eq_getLsbD, h x]

/-! ### The flag set of nine booleans (R102) -/

/-- One turn of the loop decides its own flag and keeps the others. -/
theorem flagIsSet_flagsApply (given : ControlFlag → Bool) (v : BitVec 9) (x y : ControlFlag) :
    flagIsSet (flagsApply given v x) y = if y = x then given y else flagIsSet v y := by
  simp only [flagIsSet_eq_getLsbD]
  by_cases hyx : y = x
  · subst hyx
    cases h : given y <;> simp [flagsApply, h]
  · cases h : given x <;> simp [flagsApply, h, hyx]

/-- After the loop over a list of flags, each of them is as given and the others are as before. -/
theorem flagIsSet_foldl_flagsApply (given : ControlFlag → Bool) (l : List ControlFlag) (v : BitVec 9) (y : ControlFlag) :
    flagIsSet (l.foldl (flagsApply given) v) y = if y ∈ l then given y else flagIsSet v y := by
  induction l generalizing v with
  | nil => simp
  | cons x l ih =>
    rw [List.foldl_cons, ih, flagIsSet_flagsApply]
    by_cases hl : y ∈ l <;> simp [hl]

theorem flagIsSet_flagsFromBools (given : ControlFlag → Bool) (x : ControlFlag) :
    flagIsSet (flagsFromBools given) x = given x := by
  rw [flagsFromBools, flagIsSet_foldl_flagsApply, if_pos x.mem_order]

/-- The set packed from an operand is its nine low bits, whatever stands above them (log 11). -/
theorem flagsFromBools_packOperand (b : Half) : flagsFromBools (packOperand b) = b.setWidth 9 := by
  rw [eq_iff_flagIsSet_eq]
  intro x
  rw [flagIsSet_flagsFromBools, packOperand, flagIsSet_eq_getLsbD, BitVec.getLsbD_setWidth, decide_eq_true x.bit_lt,
    Bool.true_and]

/-! ### The flag set of an integer (R101, R106) -/

theorem flagsFromInt_natCast (n : Nat) : flagsFromInt n = BitVec.ofNat 9 n := BitVec.ofInt_natCast 9 n

theorem flagsFromInt_toNat {w : Nat} (v : BitVec w) : flagsFromInt v.toNat = v.setWidth 9 := by
  rw [flagsFromInt_natCast, BitVec.ofNat_toNat]

theorem toNat_flagsFromInt (n : Int) : ((flagsFromInt n).toNat : Int) = n % 512 := by
  rw [flagsFromInt, BitVec.toNat_ofInt]
  exact Int.toNat_of_nonneg (Int.emod_nonneg n (by decide))

theorem flagsFromInt_emod (n : Int) : flagsFromInt n = flagsFromInt (n % 512) := by
  rw [← BitVec.toNat_inj, ← Int.natCast_inj, toNat_flagsFromInt, toNat_flagsFromInt, Int.emod_emod]

/-- The data offset stands above the flags (R142), so it is dropped. -/
theorem flagsFromInt_shiftLeft_or (d : Nat) (f : BitVec 9) : flagsFromInt ((d <<< 12 ||| f.toNat : Nat) : Int) = f := by
  have hhigh : BitVec.ofNat 9 (d <<< 12) = 0#9 := by
    rw [← BitVec.toNat_inj, BitVec.toNat_ofNat, Nat.shiftLeft_eq]
    exact Nat.mod_eq_zero_of_dvd (Dvd.dvd.mul_left (by decide) d)
  rw [flagsFromInt_natCast, BitVec.ofNat_or, hhigh, BitVec.zero_or, BitVec.ofNat_toNat, BitVec.setWidth_eq]

theorem exists_flagsFromInt_toNat_eq {k : Nat} (h : k < 512) : ∃ n : Int, (flagsFromInt n).toNat = k := by
  refine ⟨k, ?_⟩
  rw [flagsFromInt_natCast, BitVec.toNat_ofNat, Nat.mod_eq_of_lt h]

end Sys2Proof.Machine
end

section
/-! PROOFS. The statements about the control-flag set (spec/42_flags.md R100 to R106). -/

namespace Sys2Proof.Machine

/-! ### What the two constructing commands do -/

theorem exec_flgFromint (n : Half) (s : State) :
    exec (.flgFromint n) s = .next (({ s with flags := n.setWidth 9 } : State).ended 0x00#8) := by
  rw [← flagsFromInt_toNat]
  rfl

theorem exec_flgPack (b : Half) (s : State) :
    exec (.flgPack b) s = .next (({ s with flags := b.setWidth 9 } : State).ended 0x00#8) := by
  rw [← flagsFromBools_packOperand]
  rfl

/-! ### The statements -/

/-- Settles O29: both commands store the nine low bits of the operand, which the statement writes once as an extract and
once as a number. -/
theorem flagConstructors : Obligations.FlagConstructors := by
  refine ⟨fun s n => ⟨cmd32_eq_or_setWidth 0x20#8 n, ?_⟩, fun s b _ => ⟨cmd32_eq_or_setWidth 0x21#8 b, ?_⟩,
    toNat_flagsFromInt⟩
  · rw [exec_flgFromint, BitVec.setWidth_eq_extractLsb' (by decide)]
  · rw [exec_flgPack, BitVec.ofNat_toNat]

/-- Settles O30: one lemma for each law; the two commands agree on every operand. -/
theorem flagConstructorLaws : Obligations.FlagConstructorLaws := by
  refine ⟨flagsFromInt_emod, fun f => ?_, fun s b _ => ?_, flagsFromInt_shiftLeft_or, fun n => (flagsFromInt n).isLt,
    fun k => exists_flagsFromInt_toNat_eq⟩
  · rw [flagsFromInt_toNat, BitVec.setWidth_eq]
  · rw [exec_flgPack, exec_flgFromint]

/-- Settles O31: the list of masks and their union are computed; every other clause is a fact about one flag. -/
theorem flagAccessors : Obligations.FlagAccessors :=
  ⟨rfl, fun x => ⟨x.mem_order, x.mask_eq_twoPow⟩, rfl, flagIsSet_iff, flagIsSet_eq_getLsbD, eq_iff_flagIsSet_eq⟩

end Sys2Proof.Machine
end

section
/-! PROOFS. The options codec as functions: the form of an encoding, decoding an encoding, and what a field is that
decodes (spec/43_options.md R110 to R126). -/

namespace Sys2Proof.Machine

/-! ### The form of an encoding (R110, R115, R117) -/

@[simp] theorem optEnc1_endOfList (v : List Byte) : optEnc1 ⟨0#8, v⟩ = [0x00#8] := rfl

@[simp] theorem optEnc1_noOp (v : List Byte) : optEnc1 ⟨1#8, v⟩ = [0x01#8] := rfl

theorem byte_ne_zero_and_ne_one {k : Byte} (h : 2 ≤ k.toNat) : k ≠ 0#8 ∧ k ≠ 1#8 := by
  refine ⟨?_, ?_⟩
  all_goals
    rintro rfl
    exact absurd h (by decide)

theorem optEnc1_sized {k : Byte} (v : List Byte) (h : 2 ≤ k.toNat) :
    optEnc1 ⟨k, v⟩ = k :: BitVec.ofNat 8 (2 + v.length) :: v := by
  obtain ⟨h0, h1⟩ := byte_ne_zero_and_ne_one h
  simp only [optEnc1, if_neg h0, if_neg h1, List.cons_append, List.nil_append]

theorem flatMap_be32_length (ws : List Word) : (ws.flatMap be32).length = 4 * ws.length := by
  rw [List.length_flatMap]
  simp [Nat.mul_comm]

/-- OPTS-OK leaves EndOfList no value, so there is one such record. -/
theorem eq_endOfList_of_kind_eq_zero {r : OptRecord} (h : r.Ok) (hk : r.kind = 0#8) : r = ⟨0#8, []⟩ := by
  obtain ⟨k, v⟩ := r
  obtain ⟨hv, -⟩ := h
  simp only at hk hv
  subst hk
  rw [List.length_eq_zero_iff.mp (hv (by decide))]

/-- The padding of R117 without negative numbers. -/
theorem padCount_eq (n : Nat) : padCount n = (4 - n % 4) % 4 := by
  unfold padCount
  omega

theorem optsEncode_eq (p : PadByte) (l : List OptRecord) :
    optsEncode p l = optsRaw l ++ List.replicate (padCount (rawLen l)) (PadByte.byte p) := by
  rw [optsEncode, optsRaw_length]

theorem optsEncode_length_mod (p : PadByte) (l : List OptRecord) : (optsEncode p l).length % 4 = 0 := by
  rw [optsEncode_length, padCount_mod]

/-- The padding is the shortest: any aligned field that holds the raw encoding holds the padded one. -/
theorem optsEncode_length_le_of_aligned (p : PadByte) {l : List OptRecord} {n : Nat} (hn : n % 4 = 0)
    (h : rawLen l ≤ n) : (optsEncode p l).length ≤ n := by
  rw [optsEncode_length, padCount_eq]
  omega

/-- A list that is already aligned is not padded. -/
theorem optsEncode_eq_optsRaw (p : PadByte) {l : List OptRecord} (h : rawLen l % 4 = 0) : optsEncode p l = optsRaw l := by
  rw [optsEncode_eq, padCount_eq, h, List.replicate_zero, List.append_nil]

theorem encLen_le_rawLen {r : OptRecord} {l : List OptRecord} (h : r ∈ l) : encLen r ≤ rawLen l :=
  List.le_sum_of_mem (List.mem_map_of_mem h)

theorem two_add_length_le_encLen {r : OptRecord} (h : 2 ≤ r.kind.toNat) : 2 + r.value.length ≤ encLen r := by
  rw [encLen, if_neg (by omega)]

/-! ### Decoding an encoding (R122, R125) -/

/-- A sized item whose length byte agrees with its value. -/
theorem optsDecode_sized_append {k : Byte} {v : List Byte} (hk : 2 ≤ k.toNat) (hv : v.length ≤ 253) (rest : List Byte) :
    optsDecode (k :: BitVec.ofNat 8 (2 + v.length) :: (v ++ rest)) = (optsDecode rest).map (⟨k, v⟩ :: ·) := by
  obtain ⟨h0, h1⟩ := byte_ne_zero_and_ne_one hk
  have hL : (BitVec.ofNat 8 (2 + v.length)).toNat = 2 + v.length := by
    rw [BitVec.toNat_ofNat]
    omega
  rw [optsDecode_sized _ _ h0 h1, hL, if_neg (by omega), if_neg (by simp), Nat.add_sub_cancel_left, List.drop_left,
    List.take_left]

/-- NoOp padding is kept by the decoder. -/
theorem optsDecode_replicate_noOp (n : Nat) :
    optsDecode (List.replicate n 0x01#8) = .ok (List.replicate n ⟨1#8, []⟩) := by
  induction n with
  | zero => rfl
  | succ n ih =>
    rw [List.replicate_succ, optsDecode_nop, ih]
    rfl

/-- Of EndOfList padding the decoder keeps the first byte. -/
theorem optsDecode_replicate_endOfList {n : Nat} (h : 0 < n) :
    optsDecode (List.replicate n 0x00#8) = .ok [⟨0#8, []⟩] := by
  obtain ⟨m, rfl⟩ := Nat.exists_eq_add_one.mpr h
  rw [List.replicate_succ, optsDecode_eol]

theorem optsDecode_raw_of_ok {l m : List OptRecord} {rest : List Byte} (hl : ∀ r ∈ l, r.Ok) (h0 : NoEol l)
    (h : optsDecode rest = .ok m) : optsDecode (optsRaw l ++ rest) = .ok (l ++ m) := by
  rw [optsDecode_raw hl h0, h]
  rfl

/-- What follows the first EndOfList, padding included, is not read. -/
theorem optsDecode_optsEncode_of_endOfList (p : PadByte) {a b : List OptRecord} {r : OptRecord}
    (h : ∀ x ∈ a ++ r :: b, x.Ok) (h0 : NoEol a) (hr : r.kind = 0#8) :
    optsDecode (optsEncode p (a ++ r :: b)) = .ok (a ++ [r]) := by
  obtain rfl := eq_endOfList_of_kind_eq_zero (h r (by simp)) hr
  rw [optsEncode_eq, optsRaw_append, optsRaw_cons, optEnc1_endOfList, List.append_assoc]
  exact optsDecode_raw_of_ok (fun x hx => h x (List.mem_append_left _ hx)) h0 (optsDecode_eol _)

/-- Without EndOfList the decoder reads the list and then the padding. -/
theorem optsDecode_optsEncode_of_noEol (p : PadByte) {l m : List OptRecord} (h : ∀ r ∈ l, r.Ok) (h0 : NoEol l)
    (hm : optsDecode (List.replicate (padCount (rawLen l)) (PadByte.byte p)) = .ok m) :
    optsDecode (optsEncode p l) = .ok (l ++ m) := by
  rw [optsEncode_eq]
  exact optsDecode_raw_of_ok h h0 hm

/-! ### A field that decodes (R122, R124, R126) -/

/-- `Scanned B l`: the scan of R122 reads the field B to its end or to the first EndOfList and finds the records l. -/
inductive Scanned : List Byte → List OptRecord → Prop
  | done : Scanned [] []
  | endOfList (rest : List Byte) : Scanned (0#8 :: rest) [⟨0#8, []⟩]
  | item {r : OptRecord} {rest : List Byte} {l : List OptRecord} (h0 : r.kind ≠ 0#8)
      (hv : r.kind.toNat < 2 → r.value.length = 0) (h : Scanned rest l) : Scanned (optEnc1 r ++ rest) (r :: l)

theorem exists_of_map_eq_ok {α β : Type} {x : Except Cause α} {f : α → β} {b : β} (h : x.map f = .ok b) :
    ∃ a, x = .ok a ∧ f a = b := by
  cases x with
  | error c => cases h
  | ok a => exact ⟨a, rfl, Except.ok.inj h⟩

/-- A sized item is the encoding of the record it is read as. -/
theorem optEnc1_take_append_drop {k L : Byte} {body : List Byte} (hk : 2 ≤ k.toNat) (hL : 2 ≤ L.toNat)
    (hb : L.toNat - 2 ≤ body.length) :
    optEnc1 ⟨k, body.take (L.toNat - 2)⟩ ++ body.drop (L.toNat - 2) = k :: L :: body := by
  have hlen : 2 + (body.take (L.toNat - 2)).length = L.toNat := by
    rw [List.length_take]
    omega
  rw [optEnc1_sized _ hk, hlen, BitVec.ofNat_toNat, BitVec.setWidth_eq]
  simp

theorem scanned_of_optsDecode {B : List Byte} {l : List OptRecord} (h : optsDecode B = .ok l) : Scanned B l := by
  induction hn : B.length using Nat.strong_induction_on generalizing B l with
  | _ n ih =>
  subst hn
  cases B with
  | nil =>
    cases h
    exact .done
  | cons k rest =>
    by_cases h0 : k = 0#8
    · subst h0
      cases h
      exact .endOfList rest
    by_cases h1 : k = 1#8
    · subst h1
      obtain ⟨m, hm, rfl⟩ := exists_of_map_eq_ok h
      exact .item (r := ⟨1#8, []⟩) h0 (fun _ => rfl) (ih _ (by simp) hm rfl)
    cases rest with
    | nil =>
      rw [optsDecode_single h0 h1] at h
      cases h
    | cons L body =>
      have hk := byte_ge_two h0 h1
      rw [optsDecode_sized L body h0 h1] at h
      split at h
      · cases h
      · split at h
        · cases h
        · obtain ⟨m, hm, rfl⟩ := exists_of_map_eq_ok h
          rw [← optEnc1_take_append_drop (body := body) hk (by omega) (by omega)]
          exact .item h0 (fun hlt => absurd hlt hk.not_gt) (ih _ (by simp; omega) hm rfl)

/-- EndOfList and NoOp are read without a value. -/
theorem Scanned.value_eq_nil {B : List Byte} {l : List OptRecord} (h : Scanned B l) :
    ∀ r ∈ l, r.kind.toNat < 2 → r.value.length = 0 := by
  induction h with
  | done => simp
  | endOfList rest => simp
  | item h0 hv _ ih => exact List.forall_mem_cons.mpr ⟨hv, ih⟩

/-- The raw encoding of the records is what the scan has consumed. -/
theorem Scanned.optsRaw_prefix {B : List Byte} {l : List OptRecord} (h : Scanned B l) : optsRaw l <+: B := by
  induction h with
  | done => exact List.nil_prefix
  | endOfList rest => exact ⟨rest, rfl⟩
  | item h0 hv _ ih => exact (List.prefix_append_right_inj _).mpr ih

/-- Without EndOfList the scan consumes the whole field. -/
theorem Scanned.optsRaw_eq {B : List Byte} {l : List OptRecord} (h : Scanned B l) (hl : NoEol l) : optsRaw l = B := by
  induction h with
  | done => rfl
  | endOfList rest => exact absurd rfl (hl _ (List.mem_singleton_self _))
  | item h0 hv _ ih => rw [optsRaw_cons, ih (List.forall_mem_cons.mp hl).2]

/-- EndOfList can only be the last record. -/
theorem Scanned.noEol_dropLast {B : List Byte} {l : List OptRecord} (h : Scanned B l) : NoEol l.dropLast := by
  induction h with
  | done => exact List.forall_mem_nil _
  | endOfList rest => exact List.forall_mem_nil _
  | @item r rest m h0 hv _ ih =>
    cases m with
    | nil => exact List.forall_mem_nil _
    | cons x m => exact List.forall_mem_cons.mpr ⟨h0, ih⟩

theorem Scanned.rawLen_le {B : List Byte} {l : List OptRecord} (h : Scanned B l) : rawLen l ≤ B.length := by
  rw [← optsRaw_length]
  exact h.optsRaw_prefix.length_le

theorem Scanned.optsOk {B : List Byte} {l : List OptRecord} (h : Scanned B l) (hB : B.length ≤ 40) : OptsOk l := by
  have hraw : rawLen l ≤ 40 := h.rawLen_le.trans hB
  refine ⟨fun r hr => ⟨h.value_eq_nil r hr, ?_⟩, hraw⟩
  by_cases hk : r.kind.toNat < 2
  · rw [h.value_eq_nil r hr hk]
    exact Nat.zero_le _
  · have := two_add_length_le_encLen (r := r) (by omega)
    have := encLen_le_rawLen hr
    omega

/-- With EndOfList as its last record, the list encodes to the field up to and with the first zero kind byte. -/
theorem Scanned.optsRaw_eq_take {B : List Byte} {a : List OptRecord} {r : OptRecord} (h : Scanned B (a ++ [r]))
    (hr : r.kind = 0#8) : B[rawLen a]? = some 0#8 ∧ optsRaw (a ++ [r]) = B.take (rawLen a + 1) := by
  have hraw : optsRaw (a ++ [r]) = optsRaw a ++ [0x00#8] := by
    rw [optsRaw_append, optsRaw_cons, optsRaw_nil, List.append_nil, optEnc1, if_pos hr]
  obtain ⟨rest, hB⟩ := h.optsRaw_prefix
  have hlen : (optsRaw a ++ [0x00#8]).length = rawLen a + 1 := by simp
  rw [hraw] at hB ⊢
  subst hB
  refine ⟨?_, ?_⟩
  · rw [List.append_assoc, ← optsRaw_length, List.getElem?_append_right le_rfl]
    simp
  · rw [← hlen, List.take_left]

end Sys2Proof.Machine
end

section
/-! PROOFS. What each command of the options codec does (spec/43_options.md R111 to R113, R118, R123). -/

namespace Sys2Proof.Machine

/-! ### The option list and the buffers -/

/-- OPTS-OK keeps OPTCNT far from its 6-bit bound. -/
theorem State.optcnt_toNat {s : State} (h : rawLen s.opts ≤ 40) : s.optcnt.toNat = s.opts.length := by
  have hlen := length_le_rawLen s.opts
  rw [State.optcnt, BitVec.toNat_ofNat]
  omega

/-- `MemRead` from address 0 shows the buffer (spec/10_state.md R24). -/
theorem State.shows_memRead (s : State) (sp : Space) (n : Nat) : Shows (s.buf sp) n (s.memRead sp 0 n) := by
  refine ⟨s.memRead_length sp 0 n, fun a b ha hb => ?_⟩
  rw [State.memRead_getElem?, if_pos ha, Nat.zero_add, State.readByte_of_lookup hb]

/-- Where every byte of the field has been written, `MemRead` is those bytes. -/
theorem State.memRead_eq_of_written {s : State} {sp : Space} {B : List Byte}
    (h : ∀ a, a < B.length → Memory.lookup (s.buf sp) a = B[a]?) : s.memRead sp 0 B.length = B :=
  State.memRead_eq_of_lookup fun i hi => by rw [Nat.zero_add, h i hi, List.getElem?_eq_getElem hi]

/-- What `MemWrite` at address 0 leaves in the buffer: the bytes written, and above them what stood there. -/
theorem State.lookup_memWrite_zero (s : State) (sp : Space) (B : List Byte) :
    (∀ a, a < B.length → Memory.lookup ((s.memWrite sp 0 B).buf sp) a = B[a]?) ∧
    (∀ a, B.length ≤ a → Memory.lookup ((s.memWrite sp 0 B).buf sp) a = Memory.lookup (s.buf sp) a) := by
  refine ⟨fun a ha => ?_, fun a ha => ?_⟩
  · rw [State.lookup_memWrite, if_pos (by omega), Nat.sub_zero]
  · rw [State.lookup_memWrite, if_neg (by omega)]

/-- A byte of a value that is followed by zeros up to n bytes. -/
theorem getElem?_append_zeros {v : List Byte} {n a : Nat} (ha : a < n) :
    (v ++ List.replicate (n - v.length) 0x00#8)[a]? = some (v.getD a 0x00#8) := by
  by_cases hv : a < v.length
  · rw [List.getElem?_append_left hv, List.getD_eq_getElem?_getD, List.getElem?_eq_getElem hv, Option.getD_some]
  · rw [List.getElem?_append_right (by omega), List.getElem?_replicate, if_pos (by omega),
      List.getD_eq_default _ _ (by omega)]

/-! ### OPT.CLR and OPT.PUSH (R111, R112) -/

theorem exec_optClr (s : State) : exec .optClr s = .next (({ s with opts := [] } : State).ended 0x00#8) := rfl

theorem exec_optPush_of_illFormed {s : State} (h : s.owKind.toNat < 2 ∧ s.owVlen.toNat ≠ 0 ∨ 38 < s.owVlen.toNat) :
    exec .optPush s = .next (s.ended 0x14#8) := by
  simp only [exec, execOptPush, State.raise_eq_ended, Cause.code]
  by_cases hk : s.owKind.toNat < 2 ∧ s.owVlen.toNat ≠ 0
  · rw [if_pos hk]
  · rw [if_neg hk, if_pos (h.resolve_left hk)]

/-- OPT.PUSH of a well-formed record: whether the list has room for it. -/
theorem exec_optPush_of_wellFormed {s : State} (hk : s.owKind.toNat < 2 → s.owVlen.toNat = 0)
    (hn : s.owVlen.toNat ≤ 38) :
    exec .optPush s =
      if 40 < rawLen s.opts + s.windowEncLen then .next (s.ended 0x15#8)
      else .next (({ s with opts := s.opts ++ [s.windowRecord] } : State).ended 0x00#8) := by
  simp only [exec, execOptPush, State.raise_eq_ended, State.succeed_eq_ended, Cause.code]
  rw [if_neg fun h => h.2 (hk h.1), if_neg (by omega)]

/-- The value of the window's record, for a kind of either sort. -/
theorem State.shows_windowRecord_value {s : State} (h : s.owKind.toNat < 2 → s.owVlen.toNat = 0) :
    Shows s.owval s.owVlen.toNat s.windowRecord.value := by
  by_cases hk : 2 ≤ s.owKind.toNat
  · rw [State.windowRecord, if_pos hk]
    exact s.shows_memRead .owval _
  · rw [State.windowRecord, if_neg hk, h (by omega)]
    exact ⟨rfl, fun a b ha => absurd ha (Nat.not_lt_zero a)⟩

theorem State.rawLen_append_windowRecord (s : State) :
    rawLen (s.opts ++ [s.windowRecord]) = rawLen s.opts + s.windowEncLen := by
  rw [rawLen_append, rawLen_cons, rawLen_nil, Nat.add_zero, encLen, State.windowEncLen, State.windowRecord]
  by_cases hk : s.owKind.toNat < 2
  · rw [if_pos hk, if_pos hk]
  · rw [if_neg hk, if_neg hk, if_pos (by omega), State.memRead_length]

/-! ### OPT.GET (R113) -/

theorem exec_optGet_of_none {s : State} {i : Half} (h : s.opts[i.toNat]? = none) :
    exec (.optGet i) s = .next (s.ended 0x13#8) := by
  simp only [exec, execOptGet, h, State.raise_eq_ended, Cause.code]

theorem exec_optGet_of_some {s : State} {i : Half} {r : OptRecord} (h : s.opts[i.toNat]? = some r)
    (hr : r.value.length ≤ 40) :
    exec (.optGet i) s = .next ((({ s with owKind := r.kind, owVlen := BitVec.ofNat 8 r.value.length } : State).memWrite
      .owval 0 (r.value ++ List.replicate (40 - r.value.length) 0x00#8)).ended 0x00#8) := by
  simp only [exec, execOptGet, h, State.succeed_eq_ended]
  exact State.storing_of_le (by simp [Space.capacity]; omega)

/-! ### OPT.ENC and OPT.DEC (R118, R123) -/

theorem exec_optEnc {s : State} (h : rawLen s.opts ≤ 40) :
    exec .optEnc s = .next (({ s.memWrite .optbuf 0 (optsEncode s.params.pad s.opts) with
      optlen := BitVec.ofNat 6 (optsEncode s.params.pad s.opts).length } : State).ended 0x00#8) := by
  simp only [exec, execOptEnc, State.succeed_eq_ended]
  exact State.storing_of_le (optsEncode_length_le s.params.pad h)

theorem exec_optDec_of_ok {s : State} {l : List OptRecord} (h : s.optlen.toNat ≤ 40)
    (hl : optsDecode (s.memRead .optbuf 0 s.optlen.toNat) = .ok l) :
    exec .optDec s = .next (({ s with opts := l } : State).ended 0x00#8) := by
  rw [exec, execOptDec, State.reading_of_le h, hl]
  rfl

theorem exec_optDec_of_error {s : State} {c : Cause} (h : s.optlen.toNat ≤ 40)
    (hc : optsDecode (s.memRead .optbuf 0 s.optlen.toNat) = .error c) :
    exec .optDec s = .next (s.ended c.code) := by
  rw [exec, execOptDec, State.reading_of_le h, hc]
  rfl

end Sys2Proof.Machine
end

section
/-! PROOFS. The statements about the options codec (spec/43_options.md R110 to R126). -/

namespace Sys2Proof.Machine

/-- Settles O42: the four cases differ in what the decoder makes of the bytes behind the last record it keeps. -/
theorem optionDecodeAfterEncode : Obligations.OptionDecodeAfterEncode := by
  rintro l ⟨hok, -⟩
  simp only [← padCount_eq]
  refine ⟨?_, fun h0 => ?_, fun h0 hpad => ?_, fun h0 hpad => ?_⟩
  · rintro p a r b rfl h0 hr
    exact optsDecode_optsEncode_of_endOfList p hok h0 hr
  · exact optsDecode_optsEncode_of_noEol .noOp hok h0 (optsDecode_replicate_noOp _)
  · simpa using optsDecode_optsEncode_of_noEol .endOfList hok h0 (m := []) (by rw [hpad]; rfl)
  · exact optsDecode_optsEncode_of_noEol .endOfList hok h0 (optsDecode_replicate_endOfList hpad)

/-- Settles O34: OPT.PUSH of an ill-formed record, and the room test for a well-formed one. -/
theorem optionPush : Obligations.OptionPush := by
  intro s
  refine ⟨rfl, fun h => exec_optPush_of_illFormed (.inl h), fun ⟨_, h⟩ => exec_optPush_of_illFormed (.inr h),
    fun ⟨hk, hn, hfull⟩ => ?_, fun ⟨hk, hn, hfits⟩ => ?_⟩
  · exact (exec_optPush_of_wellFormed hk hn).trans (if_pos hfull)
  · refine ⟨s.windowRecord.value, _, State.shows_windowRecord_value hk,
      (exec_optPush_of_wellFormed hk hn).trans (if_neg hfits.not_gt), rfl, ?_⟩
    have hraw : rawLen (s.opts ++ [s.windowRecord]) ≤ 40 := s.rawLen_append_windowRecord.trans_le hfits
    have hcnt := State.optcnt_toNat (s := ({ s with opts := s.opts ++ [s.windowRecord] } : State).ended 0x00#8) hraw
    rw [hcnt, State.optcnt_toNat (le_of_add_le_left hfits)]
    exact List.length_append

/-- Settles O35: the list either has a record i, which OPT.GET writes over the whole window, or not. -/
theorem optionGet : Obligations.OptionGet := by
  rintro s i ⟨hok, hraw⟩
  rw [State.optcnt_toNat hraw]
  refine ⟨cmd32_eq_or_setWidth 0x32#8 i, fun h => exec_optGet_of_none (List.getElem?_eq_none h), fun h => ?_⟩
  have hget := List.getElem?_eq_getElem h
  generalize s.opts[i.toNat] = r at hget
  obtain ⟨-, hv⟩ := hok r (List.mem_of_getElem? hget)
  obtain ⟨hbelow, habove⟩ := State.lookup_memWrite_zero
    ({ s with owKind := r.kind, owVlen := BitVec.ofNat 8 r.value.length } : State) .owval
    (r.value ++ List.replicate (40 - r.value.length) 0x00#8)
  have hlen : (r.value ++ List.replicate (40 - r.value.length) 0x00#8).length = 40 := by
    simp
    omega
  rw [hlen] at hbelow habove
  refine ⟨r, _, hget, exec_optGet_of_some hget (by omega), rfl, ?_, fun a ha => ?_, habove, rfl⟩
  · exact (BitVec.toNat_ofNat _ _).trans (Nat.mod_eq_of_lt (by omega))
  · exact (hbelow a ha).trans (getElem?_append_zeros ha)

/-- Settles O37: R119's rule is the arithmetic of the padding. -/
theorem optionAlignment : Obligations.OptionAlignment :=
  fun p l => ⟨optsEncode_length_mod p l, fun ⟨_, hraw⟩ => optsEncode_length_le p hraw⟩

/-- Settles O38: OPT.ENC is one `MemWrite` of the encoding and OPTLEN. -/
theorem optionEncodeCommand : Obligations.OptionEncodeCommand := by
  rintro s ⟨-, hraw⟩
  have hlen := optsEncode_length_le s.params.pad hraw
  obtain ⟨hbelow, habove⟩ := s.lookup_memWrite_zero .optbuf (optsEncode s.params.pad s.opts)
  exact ⟨rfl, _, exec_optEnc hraw, (BitVec.toNat_ofNat _ _).trans (Nat.mod_eq_of_lt (by omega)), hbelow, habove, rfl⟩

/-- Settles O39: one equation of the decoder for each kind of item. -/
theorem optionDecoderItems : Obligations.OptionDecoderItems := by
  refine ⟨optsDecode_nil, optsDecode_eol, fun rest l h => ?_, fun rest c h => ?_, fun k hk => ?_⟩
  · rw [optsDecode_nop, h]
    rfl
  · rw [optsDecode_nop, h]
    rfl
  obtain ⟨h0, h1⟩ := byte_ne_zero_and_ne_one hk
  refine ⟨optsDecode_single h0 h1, fun L body hL => ?_, fun L body hL hbody => ?_, fun v rest l hv h => ?_,
    fun v rest c hv h => ?_⟩
  · rw [optsDecode_sized L body h0 h1, if_pos hL]
  · rw [optsDecode_sized L body h0 h1, if_neg (by omega), if_pos (by omega)]
  · rw [optsDecode_sized_append hk hv, h]
    rfl
  · rw [optsDecode_sized_append hk hv, h]
    rfl

/-- Settles O40: the field is what `MemRead` gives; the decoder has a list for it or one of its two errors. -/
theorem optionDecodeCommand : Obligations.OptionDecodeCommand := by
  refine ⟨rfl, fun s hs => ⟨fun B l hlen hB hl => ?_, s.memRead .optbuf 0 s.optlen.toNat, s.shows_memRead .optbuf _, ?_⟩⟩
  · rw [← State.memRead_eq_of_written (s := s) (sp := .optbuf) hB, hlen] at hl
    exact exec_optDec_of_ok hs hl
  · cases hd : optsDecode (s.memRead .optbuf 0 s.optlen.toNat) with
    | ok l => exact .inl ⟨l, rfl, exec_optDec_of_ok hs hd⟩
    | error c =>
      obtain rfl | rfl := optsDecode_error hd
      · exact .inr (.inl ⟨rfl, exec_optDec_of_error hs hd⟩)
      · exact .inr (.inr ⟨rfl, exec_optDec_of_error hs hd⟩)

/-- Settles O41: facts about `Scanned` fields. -/
theorem decodedListIsWellFormed : Obligations.DecodedListIsWellFormed := by
  intro B l hB h
  have hs := scanned_of_optsDecode h
  exact ⟨hs.optsOk hB, hs.optsRaw_prefix, hs.rawLen_le⟩

/-- Settles O43: the raw encoding is the part of the field the scan consumed, and padding fills at most three bytes. -/
theorem optionEncodeAfterDecode : Obligations.OptionEncodeAfterDecode := by
  intro p B l h hB
  have hs := scanned_of_optsDecode h
  refine ⟨optsEncode_length_le_of_aligned p hB hs.rawLen_le, fun h0 => ?_, ?_⟩
  · have hraw := hs.optsRaw_eq h0
    rw [optsEncode_eq_optsRaw p (by rw [← optsRaw_length, hraw, hB]), hraw]
  · rintro a r rfl hr
    have h0 := hs.noEol_dropLast
    rw [List.dropLast_concat] at h0
    obtain ⟨hq, htake⟩ := hs.optsRaw_eq_take hr
    refine ⟨h0, hq, htake, ?_⟩
    have hle := hs.rawLen_le
    have hlen : rawLen (a ++ [r]) = rawLen a + 1 := by
      rw [rawLen_append, rawLen_cons, rawLen_nil, encLen, hr]
      rfl
    rw [optsEncode_length, padCount_eq, hlen]
    omega

/-- Settles O33: the meaning of OPT.CLR; OPTCNT counts the records. -/
theorem optionListClear : Obligations.OptionListClear :=
  ⟨rfl, fun s => ⟨exec_optClr s, rfl⟩⟩

/-- Settles O36: the encoding of each kind of record, and the padding of R117. -/
theorem optionEncodingForm : Obligations.OptionEncodingForm := by
  refine ⟨optEnc1_endOfList, optEnc1_noOp, fun k v hk => optEnc1_sized v hk, fun k ws hk => ?_, optsRaw_nil,
    optsRaw_append, fun r => ?_, optsRaw_length, fun l => ?_⟩
  · rw [optEnc1_sized _ hk, flatMap_be32_length]
  · rw [optsRaw_cons, optsRaw_nil, List.append_nil]
  · exact ⟨padCount (rawLen l), padCount_lt _, padCount_mod _, optsEncode_eq .noOp l, optsEncode_eq .endOfList l⟩

end Sys2Proof.Machine
end

section
/-! PROOFS. The arithmetic of the fold and of the checksum (spec/44_checksum.md R131 to R135). The fold of a value is
settled by the value modulo 65535 and by whether it is 0; every law is read off the sum of the words. -/

namespace Sys2Proof.Machine

/-! ### The fold -/

/-- The loop in the bit operations of R131. -/
theorem fold_eq_and_shift (S : Nat) : fold S = if S > 0xFFFF then fold ((S &&& 0xFFFF) + (S >>> 16)) else S := by
  rw [show S &&& 0xFFFF = S % 65536 from Nat.and_two_pow_sub_one_eq_mod S 16, Nat.shiftRight_eq_div_pow]
  exact fold_eq S

theorem fold_eq_closed_form {S : Nat} (h : 1 ≤ S) : fold S = 1 + (S - 1) % 65535 := by
  have hle := fold_le S
  have hmod := fold_mod S
  have hpos := fold_pos h
  omega

@[simp] theorem fold_zero : fold 0 = 0 := rfl

theorem fold_eq_zero_iff {S : Nat} : fold S = 0 ↔ S = 0 := by
  refine ⟨fun h => ?_, fun h => h ▸ fold_zero⟩
  by_contra hS
  have hpos := fold_pos (Nat.one_le_iff_ne_zero.mpr hS)
  omega

theorem fold_eq_top_iff (S : Nat) : fold S = 0xFFFF ↔ 1 ≤ S ∧ S % 65535 = 0 := by
  rcases Nat.eq_zero_or_pos S with rfl | hS
  · simp
  · rw [fold_eq_closed_form hS]
    omega

/-- Folding early or late (R134). -/
theorem fold_fold_add (S T : Nat) : fold (fold S + T) = fold (S + T) := by
  rcases Nat.eq_zero_or_pos S with rfl | hS
  · rw [fold_zero]
  · have hmod := fold_mod S
    have hpos := fold_pos hS
    rw [fold_eq_closed_form (S := fold S + T) (by omega), fold_eq_closed_form (S := S + T) (by omega)]
    omega

/-! ### The sum of the words -/

theorem padEven_of_even {B : List Byte} (h : B.length % 2 = 0) : padEven B = B := if_neg (by omega)

theorem sumWords_padEven_nil : sumWords (padEven []) = 0 := rfl

/-- An odd last byte is the high byte of its word (R131). -/
theorem sumWords_padEven_singleton (b : Byte) : sumWords (padEven [b]) = b.toNat * 256 := by
  simp [padEven, sumWords]

/-- The words of what follows an even part are summed as they stand (R134). -/
theorem sumWords_padEven_append {B : List Byte} (C : List Byte) (h : B.length % 2 = 0) :
    sumWords (padEven (B ++ C)) = sumWords (padEven B) + sumWords (padEven C) := by
  rw [padEven_append B C h, sumWords_append B _ h, padEven_of_even h]

theorem sumWords_padEven_cons_cons (a b : Byte) (B : List Byte) :
    sumWords (padEven (a :: b :: B)) = (a.toNat * 256 + b.toNat) + sumWords (padEven B) := by
  rw [show a :: b :: B = [a, b] ++ B from rfl, padEven_append [a, b] B (by simp), List.cons_append, List.singleton_append,
    sumWords]

/-- After an odd part the first byte is the low byte of the word begun (R134). -/
theorem sumWords_padEven_append_odd {B : List Byte} (C : List Byte) (b c : Byte) (h : B.length % 2 = 0) :
    sumWords (padEven ((B ++ [b]) ++ (c :: C))) =
      sumWords (padEven B) + (b.toNat * 256 + c.toNat) + sumWords (padEven C) := by
  rw [List.append_assoc, List.singleton_append, sumWords_padEven_append _ h, sumWords_padEven_cons_cons]
  omega

/-- The sum by word index, a byte past the end read as 0. -/
theorem sumWords_padEven_eq_sum_range (B : List Byte) :
    sumWords (padEven B) = ((List.range ((B.length + 1) / 2)).map
      (fun i => (B.getD (2 * i) 0x00#8).toNat * 256 + (B.getD (2 * i + 1) 0x00#8).toNat)).sum := by
  induction B using List.twoStepInduction with
  | nil => rfl
  | singleton b => simp [sumWords_padEven_singleton]
  | cons_cons a b B ih _ =>
    have hwords : ((a :: b :: B).length + 1) / 2 = (B.length + 1) / 2 + 1 := by
      simp only [List.length_cons]
      omega
    rw [sumWords_padEven_cons_cons, ih, hwords, List.range_succ_eq_map, List.map_cons, List.sum_cons, List.map_map]
    rfl

theorem sumWords_padEven_eq_zero_iff (B : List Byte) : sumWords (padEven B) = 0 ↔ ∀ b ∈ B, b = 0#8 := by
  have hbyte (b : Byte) : b.toNat = 0 ↔ b = 0#8 := by rw [← BitVec.toNat_inj, BitVec.toNat_zero]
  induction B using List.twoStepInduction with
  | nil => simp [sumWords_padEven_nil]
  | singleton b => simp [sumWords_padEven_singleton, hbyte]
  | cons_cons a b B ih _ => simp [sumWords_padEven_cons_cons, ih, hbyte, and_assoc]

/-- A sequence of 16-bit words is the sum of its values. -/
theorem sumWords_padEven_flatMap_be16 (v : List Half) :
    sumWords (padEven (v.flatMap be16)) = (v.map BitVec.toNat).sum := by
  induction v with
  | nil => rfl
  | cons x v ih =>
    rw [List.flatMap_cons, sumWords_padEven_append _ (by simp), padEven_of_even (by simp), sumWords_be16, ih,
      List.map_cons, List.sum_cons]

/-- A word field at an even index adds its value to the sum of the sequence that holds 0 there (R135). -/
theorem sumWords_padEven_field {A : List Byte} (D : List Byte) (C : Half) (h : A.length % 2 = 0) :
    sumWords (padEven (A ++ be16 C ++ D)) = sumWords (padEven (A ++ [0x00#8, 0x00#8] ++ D)) + C.toNat := by
  have hfield : (be16 C).length % 2 = 0 := by simp
  rw [List.append_assoc, List.append_assoc, sumWords_padEven_append _ h, sumWords_padEven_append _ h,
    sumWords_padEven_append _ hfield, padEven_of_even hfield, sumWords_be16, List.cons_append, List.singleton_append,
    sumWords_padEven_cons_cons]
  simp only [BitVec.toNat_zero]
  omega

/-! ### The checksum -/

theorem checksum_eq_iff (B : List Byte) (v : Half) :
    checksum B = v ↔ fold (sumWords (padEven B)) + v.toNat = 65535 := by
  have hle := fold_le (sumWords (padEven B))
  rw [← BitVec.toNat_inj, checksum_toNat]
  omega

theorem checksum_eq_top_iff (B : List Byte) : checksum B = 0xFFFF#16 ↔ ∀ b ∈ B, b = 0#8 := by
  rw [checksum_eq_iff, ← sumWords_padEven_eq_zero_iff, ← fold_eq_zero_iff]
  exact Nat.add_eq_right

theorem checksum_eq_zero_iff (B : List Byte) :
    checksum B = 0x0000#16 ↔ 1 ≤ sumWords (padEven B) ∧ sumWords (padEven B) % 65535 = 0 := by
  rw [checksum_eq_iff, ← fold_eq_top_iff]
  rfl

theorem checksum_perm {v w : List Half} (h : v.Perm w) : checksum (v.flatMap be16) = checksum (w.flatMap be16) := by
  rw [checksum, checksum, sumWords_padEven_flatMap_be16, sumWords_padEven_flatMap_be16, (h.map BitVec.toNat).sum_eq]

/-- The quick test on a stored checksum: the field and the checksum of the rest agree, or they are the two zeros of
one's-complement arithmetic (R135). -/
theorem checksum_field_eq_zero_iff {A : List Byte} (D : List Byte) (C : Half) (h : A.length % 2 = 0) :
    checksum (A ++ be16 C ++ D) = 0x0000#16 ↔
      C = checksum (A ++ [0x00#8, 0x00#8] ++ D) ∨
        (checksum (A ++ [0x00#8, 0x00#8] ++ D) = 0x0000#16 ∧ C = 0xFFFF#16) := by
  have hfold : checksum (A ++ be16 C ++ D) = 0x0000#16 ↔
      1 ≤ fold (sumWords (padEven (A ++ [0x00#8, 0x00#8] ++ D))) + C.toNat ∧
        (fold (sumWords (padEven (A ++ [0x00#8, 0x00#8] ++ D))) + C.toNat) % 65535 = 0 := by
    rw [checksum_eq_iff, sumWords_padEven_field D C h, ← fold_fold_add, ← fold_eq_top_iff]
    rfl
  have hle := fold_le (sumWords (padEven (A ++ [0x00#8, 0x00#8] ++ D)))
  have hC := C.isLt
  rw [hfold, eq_comm (a := C), checksum_eq_iff, checksum_eq_iff, ← BitVec.toNat_inj]
  simp only [BitVec.toNat_ofNat]
  omega

end Sys2Proof.Machine
end

section
/-! PROOFS. The statements about the checksum engine (spec/44_checksum.md R131 to R135). -/

namespace Sys2Proof.Machine

/-! ### What CSUM does -/

theorem exec_csum {s : State} (h : s.seglen.toNat ≤ 65547) :
    exec .csum s = .next (({ s with csumres := checksum (s.memRead .segbuf 0 s.seglen.toNat) } : State).ended 0x00#8) := by
  rw [exec, execCsum, State.reading_of_le h, State.succeed_eq_ended]

/-! ### The statements -/

/-- Settles O45: the model's loop divides where the rule masks and shifts; the sum by index is the sum by pairs. -/
theorem checksumAlgorithm : Obligations.ChecksumAlgorithm :=
  ⟨fold_eq_and_shift, fun B => by rw [checksum_toNat, sumWords_padEven_eq_sum_range]⟩

/-- Settles O46: the bytes summed are those `MemRead` gives. -/
theorem checksumCommand : Obligations.ChecksumCommand :=
  ⟨rfl, fun s h => ⟨s.memRead .segbuf 0 s.seglen.toNat, s.shows_memRead .segbuf _, exec_csum h⟩⟩

/-- Settles O47: one lemma for each law; that the place of a byte in its word matters is computed. -/
theorem checksumLaws : Obligations.ChecksumLaws :=
  ⟨fold_zero, fun _ => fold_eq_closed_form, fold_eq_top_iff, checksum_eq_top_iff, checksum_eq_zero_iff, fold_fold_add,
    fun _ _ => checksum_perm, by decide, fun _ C => sumWords_padEven_append C,
    fun _ C b c => sumWords_padEven_append_odd C b c⟩

/-- Settles O48: the three clauses are the two directions of the quick test. -/
theorem storedChecksumCheck : Obligations.StoredChecksumCheck := by
  intro A D C h X X0
  have htest : checksum X = 0x0000#16 ↔ C = checksum X0 ∨ (checksum X0 = 0x0000#16 ∧ C = 0xFFFF#16) :=
    checksum_field_eq_zero_iff D C h
  exact ⟨fun hright => htest.mpr (.inl hright), htest.mp, fun hzero htop => htest.mpr (.inr ⟨hzero, htop⟩)⟩

end Sys2Proof.Machine
end

section
/-! PROOFS. The fixed header of a segment as a value of its own (spec/30_encoding.md R64 to R66), and the serializer and
the parser in its terms (spec/45_segment.md R141 to R150): both are about `WireHeader.bytes` followed by the rest. -/

namespace Sys2Proof.Machine

/-! ### The fields of the fixed header (spec/30_encoding.md R64) -/

/-- The eight fields of the 20-byte fixed header, in their order on the wire. -/
structure WireHeader where
  sport : Half
  dport : Half
  seq : Word
  ack : Word
  offsetFlags : Half
  win : Half
  checksum : Half
  urg : Half

/-- The fixed header as it stands in a segment. -/
def WireHeader.bytes (h : WireHeader) : List Byte :=
  be16 h.sport ++ be16 h.dport ++ be32 h.seq ++ be32 h.ack ++ be16 h.offsetFlags ++ be16 h.win ++ be16 h.checksum ++
    be16 h.urg

/-- The data offset of a header, as a number. -/
abbrev WireHeader.dataOffset (h : WireHeader) : Nat := dataOffsetOf h.offsetFlags

/-- The header a byte sequence begins with. -/
def wireHeaderOf (B : List Byte) : WireHeader where
  sport := u16be B 0
  dport := u16be B 2
  seq := u32be B 4
  ack := u32be B 8
  offsetFlags := u16be B 12
  win := u16be B 14
  checksum := u16be B 16
  urg := u16be B 18

@[simp] theorem WireHeader.bytes_length (h : WireHeader) : h.bytes.length = 20 := rfl

theorem be16_append (a b : Byte) : be16 (a ++ b) = [a, b] := by
  rw [be16, BitVec.extractLsb'_append_eq_left, BitVec.extractLsb'_append_eq_right]

theorem extractLsb'_append_byte {w : Nat} (x : BitVec w) (y : Byte) (i : Nat) :
    (x ++ y).extractLsb' (i + 8) 8 = x.extractLsb' i 8 := BitVec.extractLsb'_append_eq_of_le (by omega)

theorem be32_append (a b c d : Byte) : be32 (a ++ b ++ c ++ d) = [a, b, c, d] := by
  simp only [be32, List.cons.injEq, and_true]
  exact ⟨(extractLsb'_append_byte _ d 16).trans ((extractLsb'_append_byte _ c 8).trans
      BitVec.extractLsb'_append_eq_left),
    (extractLsb'_append_byte _ d 8).trans ((extractLsb'_append_byte _ c 0).trans BitVec.extractLsb'_append_eq_right),
    (extractLsb'_append_byte _ d 0).trans BitVec.extractLsb'_append_eq_right, BitVec.extractLsb'_append_eq_right⟩

/-- Cutting a 16-bit field off the bytes from index i on. -/
theorem be16_u16be_append_drop {B : List Byte} {i : Nat} (h : i + 2 ≤ B.length) :
    be16 (u16be B i) ++ B.drop (i + 2) = B.drop i := by
  rw [u16be, be16_append, List.drop_eq_getElem_cons (i := i) (by omega),
    List.drop_eq_getElem_cons (i := i + 1) (by omega),
    List.getD_eq_getElem _ _ (by omega), List.getD_eq_getElem _ _ (by omega)]
  rfl

/-- Cutting a 32-bit field off the bytes from index i on. -/
theorem be32_u32be_append_drop {B : List Byte} {i : Nat} (h : i + 4 ≤ B.length) :
    be32 (u32be B i) ++ B.drop (i + 4) = B.drop i := by
  rw [u32be, be32_append, List.drop_eq_getElem_cons (i := i) (by omega),
    List.drop_eq_getElem_cons (i := i + 1) (by omega),
    List.drop_eq_getElem_cons (i := i + 2) (by omega), List.drop_eq_getElem_cons (i := i + 3) (by omega),
    List.getD_eq_getElem _ _ (by omega), List.getD_eq_getElem _ _ (by omega),
    List.getD_eq_getElem _ _ (by omega), List.getD_eq_getElem _ _ (by omega)]
  rfl

/-- A sequence of at least 20 bytes is a fixed header and the rest. -/
theorem wireHeaderOf_bytes_append_drop {B : List Byte} (h : 20 ≤ B.length) :
    (wireHeaderOf B).bytes ++ B.drop 20 = B := by
  simp only [WireHeader.bytes, wireHeaderOf, List.append_assoc]
  rw [be16_u16be_append_drop (i := 18) (by omega), be16_u16be_append_drop (i := 16) (by omega),
    be16_u16be_append_drop (i := 14) (by omega), be16_u16be_append_drop (i := 12) (by omega),
    be32_u32be_append_drop (i := 8) (by omega), be32_u32be_append_drop (i := 4) (by omega),
    be16_u16be_append_drop (i := 2) (by omega), be16_u16be_append_drop (i := 0) (by omega), List.drop_zero]

/-- Reading a header where it was placed. -/
theorem wireHeaderOf_bytes (h : WireHeader) : wireHeaderOf h.bytes = h := by
  cases h
  rw [wireHeaderOf, WireHeader.mk.injEq]
  exact ⟨append_bytes16 _, append_bytes16 _, append_bytes32 _, append_bytes32 _, append_bytes16 _, append_bytes16 _,
    append_bytes16 _, append_bytes16 _⟩

/-! ### The offset/flags field (spec/30_encoding.md R65, R66) -/

theorem WireHeader.dataOffset_lt (h : WireHeader) : h.dataOffset < 16 := (h.offsetFlags.extractLsb' 12 4).isLt

/-- Byte 12 holds the data offset in its high half. -/
theorem toNat_dataOffset_byte (f : Half) : ((f.extractLsb' 8 8).extractLsb' 4 4).toNat = dataOffsetOf f := by
  simp only [dataOffsetOf, BitVec.extractLsb'_toNat, Nat.shiftRight_eq_div_pow]
  omega

/-- The reserved bits are bits 3:1 of byte 12. -/
theorem reserved_byte (f : Half) : (f.extractLsb' 8 8).extractLsb' 1 3 = reservedOf f := by
  apply BitVec.eq_of_toNat_eq
  simp only [reservedOf, BitVec.extractLsb'_toNat, Nat.shiftRight_eq_div_pow]
  omega

theorem and_flagsMask (f : Half) : f &&& 0x1FF#16 = (f.setWidth 9).setWidth 16 := by
  apply BitVec.eq_of_toNat_eq
  have hmask : f.toNat &&& 0x1FF = f.toNat % 512 := Nat.and_two_pow_sub_one_eq_mod f.toNat 9
  rw [BitVec.toNat_and, BitVec.toNat_setWidth, BitVec.toNat_setWidth]
  exact hmask.trans (Nat.mod_eq_of_lt (by omega)).symm

/-- Fields that agree in the reserved bits and the flags differ in the high half of byte 12 alone. -/
theorem low_bits_eq {f g : Half} (hres : reservedOf f = reservedOf g) (hflags : f.setWidth 9 = g.setWidth 9) :
    (f.extractLsb' 8 8).extractLsb' 0 4 = (g.extractLsb' 8 8).extractLsb' 0 4 ∧
      f.extractLsb' 0 8 = g.extractLsb' 0 8 := by
  have hnatres := congrArg BitVec.toNat hres
  have hnatflags := congrArg BitVec.toNat hflags
  simp only [reservedOf, BitVec.extractLsb'_toNat, BitVec.toNat_setWidth, Nat.shiftRight_eq_div_pow]
    at hnatres hnatflags
  refine ⟨BitVec.eq_of_toNat_eq ?_, BitVec.eq_of_toNat_eq ?_⟩
  all_goals
    simp only [BitVec.extractLsb'_toNat, Nat.shiftRight_eq_div_pow]
    omega

/-- The serializer's shift and or is a sum: the flags lie below the data offset (R65). -/
theorem State.offsetFlags_eq_ofNat (s : State) :
    s.offsetFlags = BitVec.ofNat 16 (s.dataOffset * 4096 + s.flags.toNat) := by
  have hflags : s.flags.toNat < 2 ^ 12 := s.flags.isLt.trans (by decide)
  rw [State.offsetFlags, ← Nat.shiftLeft_add_eq_or_of_lt hflags, Nat.shiftLeft_eq]

/-- The field the serializer builds has the data offset, no reserved bit, and the flags. -/
theorem State.offsetFlags_fields {s : State} (h : s.dataOffset < 16) :
    dataOffsetOf s.offsetFlags = s.dataOffset ∧ reservedOf s.offsetFlags = 0#3 ∧
      s.offsetFlags.setWidth 9 = s.flags := by
  have hflags := s.flags.isLt
  have hnat : s.offsetFlags.toNat = s.dataOffset * 4096 + s.flags.toNat := by
    rw [s.offsetFlags_eq_ofNat, BitVec.toNat_ofNat]
    omega
  refine ⟨?_, BitVec.eq_of_toNat_eq ?_, BitVec.eq_of_toNat_eq ?_⟩
  · simp only [dataOffsetOf, BitVec.extractLsb'_toNat, Nat.shiftRight_eq_div_pow, hnat]
    omega
  · simp only [reservedOf, BitVec.extractLsb'_toNat, Nat.shiftRight_eq_div_pow, hnat, BitVec.toNat_zero]
    omega
  · rw [BitVec.toNat_setWidth, hnat]
    omega

/-! ### The serializer and the parser in terms of the header -/

/-- The header of the segment SEG.ENC builds, with c in its checksum field. -/
def State.wireHeader (s : State) (c : Half) : WireHeader where
  sport := s.sport
  dport := s.dport
  seq := s.seq
  ack := s.ack
  offsetFlags := s.offsetFlags
  win := s.win
  checksum := c
  urg := s.urg

theorem State.segmentBytes_eq_bytes (s : State) (pay : List Byte) :
    s.segmentBytes pay = (s.wireHeader (s.segmentChecksum pay)).bytes ++ (s.optionBytes ++ pay) := by
  rw [State.segmentBytes_eq, List.append_assoc]
  rfl

/-- What the parser takes from a header, given the records of the options and the payload: the received checksum is not
among it (R151). -/
def WireHeader.parsed (h : WireHeader) (l : List OptRecord) (pay : List Byte) : Parsed where
  sport := h.sport
  dport := h.dport
  seq := h.seq
  ack := h.ack
  flags := h.offsetFlags.setWidth 9
  win := h.win
  urg := h.urg
  opts := l
  payload := pay

theorem segParse_of_short {B : List Byte} (h : B.length < 20) : segParse B = .error .headerTruncated := if_pos h

theorem WireHeader.optionsLengthOf_eq (h : WireHeader) :
    optionsLengthOf h.offsetFlags = 4 * (h.dataOffset : Int) - 20 := by
  rw [optionsLengthOf, WireHeader.dataOffset]
  omega

/-- The parse of R150 on a header and what follows it. -/
theorem segParse_bytes_append (h : WireHeader) (rem : List Byte) :
    segParse (h.bytes ++ rem) =
      if reservedOf h.offsetFlags ≠ 0#3 then .error .headerReserved
      else if h.dataOffset < 5 then .error .dataOffsetLow
      else if rem.length < 4 * h.dataOffset - 20 then .error .dataOffsetHigh
      else (optsDecode (rem.take (4 * h.dataOffset - 20))).map (h.parsed · (rem.drop (4 * h.dataOffset - 20))) := by
  have hof := wireHeaderOf_bytes h
  have hf : u16be h.bytes 12 = h.offsetFlags := congrArg WireHeader.offsetFlags hof
  have hlen : ¬ (h.bytes ++ rem).length < 20 := by simp
  rw [segParse, if_neg hlen]
  simp only [List.take_left' h.bytes_length, List.drop_left' h.bytes_length, hf, h.optionsLengthOf_eq]
  by_cases hres : reservedOf h.offsetFlags ≠ 0#3
  · rw [if_pos hres, if_pos hres]
  rw [if_neg hres, if_neg hres]
  by_cases hlow : h.dataOffset < 5
  · rw [if_pos (by omega), if_pos hlow]
  rw [if_neg (by omega), if_neg hlow]
  by_cases hhigh : rem.length < 4 * h.dataOffset - 20
  · rw [if_pos (by omega), if_pos hhigh]
  rw [if_neg (by omega), if_neg hhigh, show (4 * (h.dataOffset : Int) - 20).toNat = 4 * h.dataOffset - 20 by omega]
  cases optsDecode (rem.take (4 * h.dataOffset - 20)) with
  | error c => rfl
  | ok l =>
    rw [flagsFromInt_toNat, ← hf]
    exact congrArg (fun g : WireHeader => Except.ok (g.parsed l _)) hof

end Sys2Proof.Machine
end

section
/-! PROOFS. What SEG.ENC and SEG.DEC do to the state (spec/45_segment.md R141 to R152). -/

namespace Sys2Proof.Machine

/-! ### The parts of a segment -/

section
variable {h : WireHeader} {ob pay : List Byte}

theorem WireHeader.dataOffset_byte (h : WireHeader) (rem : List Byte) :
    (((h.bytes ++ rem).getD 12 0#8).extractLsb' 4 4).toNat = h.dataOffset := toNat_dataOffset_byte h.offsetFlags

theorem WireHeader.u16be_offsetFlags (h : WireHeader) (rem : List Byte) : u16be (h.bytes ++ rem) 12 = h.offsetFlags :=
  append_bytes16 h.offsetFlags

theorem WireHeader.u16be_checksum (h : WireHeader) (rem : List Byte) : u16be (h.bytes ++ rem) 16 = h.checksum :=
  append_bytes16 h.checksum

/-- The options field is found by the data offset (spec/30_encoding.md R66). -/
theorem WireHeader.options_eq (hob : 4 * h.dataOffset = 20 + ob.length) :
    ((h.bytes ++ (ob ++ pay)).drop 20).take (4 * h.dataOffset - 20) = ob := by
  rw [List.drop_left' h.bytes_length, show 4 * h.dataOffset - 20 = ob.length by omega, List.take_left]

theorem WireHeader.payload_eq (hob : 4 * h.dataOffset = 20 + ob.length) :
    (h.bytes ++ (ob ++ pay)).drop (4 * h.dataOffset) = pay := by
  rw [hob, ← List.drop_drop, List.drop_left' h.bytes_length, List.drop_left]

theorem segParse_bytes_append_of_ok {l : List OptRecord} (hres : reservedOf h.offsetFlags = 0#3)
    (hob : 4 * h.dataOffset = 20 + ob.length) (hl : optsDecode ob = .ok l) :
    segParse (h.bytes ++ (ob ++ pay)) = .ok (h.parsed l pay) := by
  have hfits : ¬ (ob ++ pay).length < 4 * h.dataOffset - 20 := by
    rw [List.length_append]
    omega
  rw [segParse_bytes_append, if_neg (not_not.mpr hres), if_neg (by omega), if_neg hfits,
    show 4 * h.dataOffset - 20 = ob.length by omega, List.take_left, List.drop_left, hl]
  rfl

/-- A segment that parses is a header, an options field that decodes, and a payload. -/
theorem exists_parts_of_segParse_ok {B : List Byte} {p : Parsed} (hp : segParse B = .ok p) :
    ∃ (h : WireHeader) (ob pay : List Byte) (l : List OptRecord), B = h.bytes ++ (ob ++ pay) ∧
      reservedOf h.offsetFlags = 0#3 ∧ 4 * h.dataOffset = 20 + ob.length ∧ optsDecode ob = .ok l ∧
      p = h.parsed l pay := by
  by_cases hshort : B.length < 20
  · rw [segParse_of_short hshort] at hp
    cases hp
  have hB := wireHeaderOf_bytes_append_drop (B := B) (by omega)
  generalize wireHeaderOf B = h, B.drop 20 = rem at hB
  subst hB
  rw [segParse_bytes_append] at hp
  split at hp
  · cases hp
  split at hp
  · cases hp
  split at hp
  · cases hp
  rename_i hres hlow hhigh
  obtain ⟨l, hl, rfl⟩ := exists_of_map_eq_ok hp
  refine ⟨h, rem.take (4 * h.dataOffset - 20), rem.drop (4 * h.dataOffset - 20), l, ?_, not_not.mp hres, ?_, hl, rfl⟩
  · rw [List.take_append_drop]
  · rw [List.length_take]
    omega

end

/-- The parser does not look at the checksum field (R151). -/
theorem segParse_congr {B C : List Byte} (hlen : B.length = C.length)
    (h : ∀ i, i ≠ 16 → i ≠ 17 → B[i]? = C[i]?) : segParse B = segParse C := by
  by_cases hshort : B.length < 20
  · rw [segParse_of_short hshort, segParse_of_short (hlen ▸ hshort)]
  have hheader : wireHeaderOf C = { wireHeaderOf B with checksum := u16be C 16 } := by
    simp [wireHeaderOf, u16be, u32be, List.getD_eq_getElem?_getD, h]
  have hrest : B.drop 20 = C.drop 20 := by
    refine List.ext_getElem? fun i => ?_
    rw [List.getElem?_drop, List.getElem?_drop, h _ (by omega) (by omega)]
  rw [← wireHeaderOf_bytes_append_drop (B := B) (by omega), ← wireHeaderOf_bytes_append_drop (B := C) (by omega),
    segParse_bytes_append, segParse_bytes_append, hheader, hrest]
  rfl

/-! ### The segment SEG.ENC builds (R141 to R144) -/

/-- `out` for the payload SEG.ENC reads. -/
def State.segment (s : State) : List Byte := s.segmentBytes (s.memRead .paybuf 0 s.paylen.toNat)

@[simp] theorem State.segment_length (s : State) : s.segment.length = s.serializedLength := by
  rw [State.segment, State.segmentBytes_length, State.memRead_length]
  rfl

theorem State.segmentLength_eq (s : State) : s.segmentLength = s.serializedLength := by
  rw [State.segmentLength, s.dataOffset_mul]
  rfl

theorem State.pseudoHeader_eq (s : State) :
    s.pseudoHeader =
      be32 s.llSrc ++ be32 s.llDst ++ [0x00#8, s.llProto] ++ be16 (BitVec.ofNat 16 s.serializedLength) := by
  have hmod : BitVec.ofNat 16 (s.serializedLength % 65536) = BitVec.ofNat 16 s.serializedLength :=
    BitVec.eq_of_toNat_eq (Nat.mod_mod _ _)
  rw [State.pseudoHeader, s.segmentLength_eq, hmod]
  rfl

theorem State.dataOffset_bounds {s : State} (h : rawLen s.opts ≤ 40) : 5 ≤ s.dataOffset ∧ s.dataOffset < 16 := by
  have hlen : s.optionBytes.length ≤ 40 := optsEncode_length_le s.params.pad h
  have hmul := s.dataOffset_mul
  omega

/-- A segment around its checksum field. -/
theorem State.wireHeader_append_eq (s : State) (c : Half) (rem : List Byte) :
    (s.wireHeader c).bytes ++ rem =
      ((s.wireHeader c).bytes ++ rem).take 16 ++ (be16 c ++ ((s.wireHeader c).bytes ++ rem).drop 18) := rfl

/-- The same segment before its checksum is filled in. -/
theorem State.header_append_eq (s : State) (c : Half) (rem : List Byte) :
    s.header ++ rem =
      ((s.wireHeader c).bytes ++ rem).take 16 ++ ([0x00#8, 0x00#8] ++ ((s.wireHeader c).bytes ++ rem).drop 18) := rfl

/-- The checksum is taken over the pseudo-header and the segment with a zero checksum field. -/
theorem State.segmentChecksum_eq (s : State) (pay : List Byte) :
    s.segmentChecksum pay =
      checksum (s.pseudoHeader ++ (s.segmentBytes pay).take 16 ++ [0x00#8, 0x00#8] ++
        (s.segmentBytes pay).drop 18) := by
  refine congrArg checksum ?_
  rw [s.segmentBytes_eq_bytes]
  simp only [List.append_assoc]
  rw [← s.header_append_eq]

/-- The quick test of R135 accepts the segment. -/
theorem State.checksum_pseudoHeader_segmentBytes (s : State) (pay : List Byte) :
    checksum (s.pseudoHeader ++ s.segmentBytes pay) = 0x0000#16 := by
  have heven : (s.pseudoHeader ++ (s.segmentBytes pay).take 16).length % 2 = 0 := by
    simp
    omega
  have htest := (checksum_field_eq_zero_iff ((s.segmentBytes pay).drop 18) (s.segmentChecksum pay) heven).mpr
    (.inl (s.segmentChecksum_eq pay))
  rwa [List.append_assoc, List.append_assoc, s.segmentBytes_eq_bytes, ← s.wireHeader_append_eq,
    ← s.segmentBytes_eq_bytes] at htest

/-- The data offset counts the header and the options in words of four bytes (R141). -/
theorem State.wireHeader_dataOffset {s : State} (h : rawLen s.opts ≤ 40) (c : Half) :
    4 * (s.wireHeader c).dataOffset = 20 + s.optionBytes.length := by
  rw [← s.dataOffset_mul, ← (State.offsetFlags_fields (State.dataOffset_bounds h).2).1, Nat.mul_comm]
  rfl

/-- The descriptor of a state, with the option list l and the payload pay in place of its own. -/
def State.descriptor (s : State) (l : List OptRecord) (pay : List Byte) : Parsed where
  sport := s.sport
  dport := s.dport
  seq := s.seq
  ack := s.ack
  flags := s.flags
  win := s.win
  urg := s.urg
  opts := l
  payload := pay

/-- The parser gives back what the serializer was given, the options as their encoding decodes. -/
theorem segParse_segmentBytes {s : State} {l : List OptRecord} (h : rawLen s.opts ≤ 40)
    (hl : optsDecode s.optionBytes = .ok l) (pay : List Byte) :
    segParse (s.segmentBytes pay) = .ok (s.descriptor l pay) := by
  obtain ⟨-, hres, hflags⟩ := State.offsetFlags_fields (State.dataOffset_bounds h).2
  rw [State.segmentBytes_eq_bytes, segParse_bytes_append_of_ok (h := s.wireHeader _) hres
    (State.wireHeader_dataOffset h _) hl, WireHeader.parsed]
  simp only [State.wireHeader, hflags]
  rfl

/-- Only success has the code 0x00 (spec/60_exceptions.md R170). -/
theorem Cause.eq_success_of_code_eq_zero {c : Cause} (h : c.code = 0x00#8) : c = .success := by
  cases c with
  | success => rfl
  | _ => exact absurd h (by decide)

/-! ### SEG.ENC (R145, R146) -/

/-- The state after a SEG.ENC that succeeds. -/
def State.serialized (s : State) : State :=
  ({ s.memWrite .segbuf 0 s.segment with seglen := BitVec.ofNat 17 s.segment.length } : State).ended 0x00#8

theorem State.lookup_serialized (s : State) :
    (∀ a, a < s.segment.length → Memory.lookup s.serialized.segbuf a = s.segment[a]?) ∧
    (∀ a, s.segment.length ≤ a → Memory.lookup s.serialized.segbuf a = Memory.lookup s.segbuf a) :=
  s.lookup_memWrite_zero .segbuf s.segment

theorem State.serialized_seglen {s : State} (h : s.segment.length ≤ 65547) :
    s.serialized.seglen.toNat = s.segment.length :=
  (BitVec.toNat_ofNat _ _).trans (Nat.mod_eq_of_lt (by omega))

theorem exec_segEnc_of_detached {s : State} (h : s.llAttached = 0#1) : exec .segEnc s = .next (s.ended 0x41#8) :=
  if_pos h

theorem State.Ok.segment_length_le {s : State} (hok : s.Ok) (hcan : s.CanSerialize) : s.segment.length ≤ 65535 := by
  obtain ⟨-, -, -, hmax⟩ := hcan
  rw [State.segment_length]
  exact hmax.trans hok.params.2

theorem State.Ok.exec_segEnc {s : State} (hok : s.Ok) (hcan : s.CanSerialize) :
    exec .segEnc s = .next s.serialized := by
  have hlen := hok.segment_length_le hcan
  obtain ⟨hatt, hfam, hmin, hmax⟩ := hcan
  rw [← State.segment_length] at hmin hmax
  rw [exec, execSegEnc, if_neg (by simp [hatt]), if_neg (not_not.mpr hfam), State.reading_of_le hok.paylen]
  rw [State.segment] at hlen hmin hmax
  exact (if_neg (by omega)).trans (State.storing_of_le (hlen.trans (by decide)))

/-- A SEG.ENC that ends with success has passed its tests and written the segment. -/
theorem serialized_of_exec_segEnc {s t : State} (h : exec .segEnc s = .next t) (h0 : t.status = 0x00#8) :
    s.CanSerialize ∧ s.segment.length ≤ 65547 ∧ t = s.serialized := by
  obtain ⟨c, rfl, hc⟩ | ⟨hatt, hfam, -, hmin, hmax, hcap, ht⟩ := exec_next h
  · simp [Cause.eq_success_of_code_eq_zero h0] at hc
  · rw [← State.segment] at hmin hmax hcap ht
    rw [State.segment_length] at hmin hmax
    exact ⟨⟨(BitVec.eq_zero_or_eq_one _).resolve_left hatt, hfam, hmin, hmax⟩, hcap, ht⟩

/-! ### SEG.DEC (R150 to R152) -/

/-- The state after a SEG.DEC that succeeds. -/
def State.deserialized (s : State) (p : Parsed) : State :=
  ((s.loadParsed p).memWrite .paybuf 0 p.payload).ended 0x00#8

theorem State.lookup_deserialized (s : State) (p : Parsed) :
    (∀ a, a < p.payload.length → Memory.lookup (s.deserialized p).paybuf a = p.payload[a]?) ∧
    (∀ a, p.payload.length ≤ a → Memory.lookup (s.deserialized p).paybuf a = Memory.lookup s.paybuf a) :=
  (s.loadParsed p).lookup_memWrite_zero .paybuf p.payload

theorem exec_segDec_of_error {s : State} {c : Cause} (hs : s.seglen.toNat ≤ 65547)
    (hc : segParse (s.memRead .segbuf 0 s.seglen.toNat) = .error c) : exec .segDec s = .next (s.ended c.code) := by
  rw [exec, execSegDec, State.reading_of_le hs, hc]
  rfl

/-- A payload is at least a header shorter than its segment, so it fits PAYBUF. -/
theorem payload_length_le_of_segParse_ok {B : List Byte} {p : Parsed} (hp : segParse B = .ok p) :
    p.payload.length + 20 ≤ B.length := by
  obtain ⟨h, ob, pay, l, rfl, -, -, -, rfl⟩ := exists_parts_of_segParse_ok hp
  simp [WireHeader.parsed]
  omega

theorem exec_segDec_of_ok {s : State} {p : Parsed} (hs : s.seglen.toNat ≤ 65547)
    (hp : segParse (s.memRead .segbuf 0 s.seglen.toNat) = .ok p) : exec .segDec s = .next (s.deserialized p) := by
  have hpay := payload_length_le_of_segParse_ok hp
  rw [State.memRead_length] at hpay
  rw [exec, execSegDec, State.reading_of_le hs, hp]
  exact State.storing_of_le (show p.payload.length ≤ 65527 by omega)

/-- A SEG.DEC that ends with success has parsed the segment and loaded it. -/
theorem deserialized_of_exec_segDec {s t : State} (h : exec .segDec s = .next t) (h0 : t.status = 0x00#8) :
    ∃ p, segParse (s.memRead .segbuf 0 s.seglen.toNat) = .ok p ∧ p.payload.length ≤ 65527 ∧ t = s.deserialized p := by
  obtain ⟨-, ⟨c, rfl, hc⟩ | ⟨p, hp, hpay, ht⟩⟩ := exec_next h
  · simpa [Cause.eq_success_of_code_eq_zero h0] using segParse_error hc
  · exact ⟨p, hp, hpay, ht⟩

/-- SEG.DEC reads what SEG.ENC has just written. -/
theorem State.Ok.exec_segDec_serialized {s : State} {l : List OptRecord} (hok : s.Ok) (hcan : s.CanSerialize)
    (hl : optsDecode s.optionBytes = .ok l) :
    exec .segDec s.serialized = .next (s.serialized.deserialized
      (s.descriptor l (s.memRead .paybuf 0 s.paylen.toNat))) := by
  have hlen : s.segment.length ≤ 65547 := (hok.segment_length_le hcan).trans (by decide)
  have hseglen := State.serialized_seglen hlen
  refine exec_segDec_of_ok (hseglen.trans_le hlen) ?_
  rw [hseglen, State.memRead_eq_of_written (sp := .segbuf) s.lookup_serialized.1]
  exact segParse_segmentBytes hok.opts.2 hl _

end Sys2Proof.Machine
end

section
/-! PROOFS. The statements about the segment codec (spec/45_segment.md R141 to R156). -/

namespace Sys2Proof.Machine

/-! ### Options and payload through the codec -/

/-- Cutting a list at its first EndOfList. -/
theorem noEol_or_exists_first_eol (l : List OptRecord) :
    NoEol l ∨ ∃ a r b, l = a ++ r :: b ∧ NoEol a ∧ r.kind = 0#8 := by
  induction l with
  | nil => exact .inl (List.forall_mem_nil _)
  | cons x l ih =>
    by_cases hx : x.kind = 0#8
    · exact .inr ⟨[], x, l, rfl, List.forall_mem_nil _, hx⟩
    · obtain h | ⟨a, r, b, rfl, ha, hr⟩ := ih
      · exact .inl (List.forall_mem_cons.mpr ⟨hx, h⟩)
      · exact .inr ⟨x :: a, r, b, rfl, List.forall_mem_cons.mpr ⟨hx, ha⟩, hr⟩

/-- Padding always decodes. -/
theorem exists_optsDecode_padding (p : PadByte) (n : Nat) :
    ∃ m, optsDecode (List.replicate n (PadByte.byte p)) = .ok m := by
  cases p with
  | noOp => exact ⟨_, optsDecode_replicate_noOp n⟩
  | endOfList =>
    obtain rfl | hn := Nat.eq_zero_or_pos n
    · exact ⟨[], rfl⟩
    · exact ⟨_, optsDecode_replicate_endOfList hn⟩

/-- The encoding of a well-formed list decodes (R125). -/
theorem exists_optsDecode_optsEncode (p : PadByte) {l : List OptRecord} (h : ∀ r ∈ l, r.Ok) :
    ∃ m, optsDecode (optsEncode p l) = .ok m := by
  obtain h0 | ⟨a, r, b, rfl, ha, hr⟩ := noEol_or_exists_first_eol l
  · obtain ⟨m, hm⟩ := exists_optsDecode_padding p (padCount (rawLen l))
    exact ⟨_, optsDecode_optsEncode_of_noEol p h h0 hm⟩
  · exact ⟨_, optsDecode_optsEncode_of_endOfList p h ha hr⟩

/-- A list that is aligned and ends with its first EndOfList, or has none, comes back as it is (R125). -/
theorem optsDecode_optsEncode_of_aligned (p : PadByte) {l : List OptRecord} (h : ∀ r ∈ l, r.Ok) (h0 : NoEol l.dropLast)
    (halign : rawLen l % 4 = 0) : optsDecode (optsEncode p l) = .ok l := by
  have hnoEol (hl : NoEol l) : optsDecode (optsEncode p l) = .ok l := by
    have hpad : padCount (rawLen l) = 0 := by rw [padCount_eq, halign]
    simpa using optsDecode_optsEncode_of_noEol p h hl (m := []) (by rw [hpad]; rfl)
  obtain rfl | ⟨a, r, rfl⟩ := List.eq_nil_or_concat l
  · exact hnoEol (List.forall_mem_nil _)
  rw [List.concat_eq_append] at *
  rw [List.dropLast_concat] at h0
  by_cases hr : r.kind = 0#8
  · exact optsDecode_optsEncode_of_endOfList p h h0 hr
  · exact hnoEol (List.forall_mem_append.mpr ⟨h0, List.forall_mem_singleton.mpr hr⟩)

/-- Of written bytes `MemRead` gives each as it was written (spec/70_reset_and_hazards.md R200). -/
theorem State.lookup_eq_memRead_getElem? {s : State} {sp : Space} {n a : Nat} (h : Written (s.buf sp) n) (ha : a < n) :
    Memory.lookup (s.buf sp) a = (s.memRead sp 0 n)[a]? := by
  obtain ⟨b, hb⟩ := Option.isSome_iff_exists.mp (h a ha)
  rw [hb, (s.shows_memRead sp n).2 a b ha hb]

/-- A payload that SEG.DEC loads as a state has it is that state's. -/
theorem State.samePayload_deserialized {s u : State} {p : Parsed} (h : Written s.paybuf s.paylen.toNat)
    (hp : p.payload = s.memRead .paybuf 0 s.paylen.toNat) : SamePayload s (u.deserialized p) := by
  have hlen : p.payload.length = s.paylen.toNat := by rw [hp, State.memRead_length]
  refine ⟨?_, fun a ha => ?_⟩
  · show s.paylen = BitVec.ofNat 16 p.payload.length
    rw [hlen, BitVec.ofNat_toNat, BitVec.setWidth_eq]
  · obtain ⟨b, hb⟩ := Option.isSome_iff_exists.mp (h a ha)
    refine ⟨b, hb, ?_⟩
    rw [(u.lookup_deserialized p).1 a (by omega), hp, (s.shows_memRead .paybuf _).2 a b ha hb]

/-- The host attaches a lower-layer reference of family 4 (R156). -/
def State.attach (s : State) (src dst : Word) (proto : Byte) : State :=
  { s with llAttached := 1#1, llFamily := 4#8, llSrc := src, llDst := dst, llProto := proto }

/-- SEG.ENC reads the payload that SEG.DEC has just loaded. -/
theorem State.segment_attach_deserialized (s : State) {p : Parsed} (h : p.payload.length ≤ 65527) (src dst : Word)
    (proto : Byte) : ((s.deserialized p).attach src dst proto).segment =
      ((s.deserialized p).attach src dst proto).segmentBytes p.payload := by
  have hpaylen : ((s.deserialized p).attach src dst proto).paylen.toNat = p.payload.length :=
    (BitVec.toNat_ofNat _ _).trans (Nat.mod_eq_of_lt (by omega))
  have hread : ((s.deserialized p).attach src dst proto).memRead .paybuf 0 p.payload.length = p.payload :=
    State.memRead_eq_of_written (sp := .paybuf) (s.lookup_deserialized p).1
  rw [State.segment, hpaylen, hread]

/-- The segment built from a parsed one has its header, but for the data offset and the checksum, and its payload
(R156). -/
theorem State.exists_reserialized_parts (s : State) (h : WireHeader) {l : List OptRecord} {pay : List Byte}
    (hpay : pay.length ≤ 65527) (hl : rawLen l ≤ 40) (src dst : Word) (proto : Byte) :
    ∃ f c : Half,
      let B := ((s.deserialized (h.parsed l pay)).attach src dst proto).segment
      B = ({ h with offsetFlags := f, checksum := c } : WireHeader).bytes ++ (optsEncode s.params.pad l ++ pay) ∧
      4 * dataOffsetOf f = 20 + (optsEncode s.params.pad l).length ∧ reservedOf f = 0#3 ∧
      f.setWidth 9 = h.offsetFlags.setWidth 9 ∧
      c = checksum (be32 src ++ be32 dst ++ [0x00#8, proto] ++ be16 (BitVec.ofNat 16 B.length) ++ B.take 16 ++
        [0x00#8, 0x00#8] ++ B.drop 18) := by
  have hsegment := s.segment_attach_deserialized (p := h.parsed l pay) hpay src dst proto
  have hopts : ((s.deserialized (h.parsed l pay)).attach src dst proto).opts = l := rfl
  rw [← hopts] at hl
  obtain ⟨-, hres, hflags⟩ := State.offsetFlags_fields (State.dataOffset_bounds hl).2
  refine ⟨_, _, hsegment.trans (State.segmentBytes_eq_bytes _ pay), State.wireHeader_dataOffset hl 0#16, hres,
    hflags, ?_⟩
  rw [State.segment_length, hsegment, State.segmentChecksum_eq, State.pseudoHeader_eq]
  rfl

/-! ### The statements -/

/-- Settles O56: the segment parses to the descriptor it was built from; PAYBUF receives the bytes it held. -/
theorem serializeThenParse : Obligations.SerializeThenParse := by
  intro s hok hcan hwritten
  obtain ⟨hrecords, -⟩ := hok.opts
  obtain ⟨l, hl⟩ := exists_optsDecode_optsEncode s.params.pad hrecords
  have hpay := State.samePayload_deserialized (u := s.serialized)
    (p := s.descriptor l (s.memRead .paybuf 0 s.paylen.toNat)) hwritten rfl
  refine ⟨_, _, hok.exec_segEnc hcan, rfl, hok.exec_segDec_serialized hcan hl, rfl, rfl, rfl, rfl, rfl, rfl, rfl, rfl,
    hpay, rfl, hl, fun h0 halign => ?_⟩
  have hopts : s.opts = l := Except.ok.inj ((optsDecode_optsEncode_of_aligned _ hrecords h0 halign).symm.trans hl)
  exact ⟨rfl, rfl, rfl, rfl, rfl, rfl, rfl, hopts, hpay⟩

/-- Settles O57: both segments have one header but for the data offset and the checksum, and one payload; the options
are those of R126. -/
theorem parseThenSerialize : Obligations.ParseThenSerialize := by
  intro s t v src dst proto hok hwritten hdec ht henc hv
  obtain ⟨p, hp, hpay, rfl⟩ := deserialized_of_exec_segDec hdec ht
  change exec .segEnc ((s.deserialized p).attach src dst proto) = .next v at henc
  obtain ⟨-, hcap, rfl⟩ := serialized_of_exec_segEnc henc hv
  have hlookup (a : Nat) (ha : a < s.seglen.toNat) := State.lookup_eq_memRead_getElem? (sp := .segbuf) hwritten ha
  have hBlen := s.memRead_length .segbuf 0 s.seglen.toNat
  refine ⟨s.memRead .segbuf 0 s.seglen.toNat, _, hBlen, hBlen.symm ▸ hlookup, (State.serialized_seglen hcap).symm,
    (State.lookup_serialized _).1, ?_⟩
  generalize s.memRead .segbuf 0 s.seglen.toNat = B at hp
  obtain ⟨h, ob, pay, l, rfl, hres, hob, hl, rfl⟩ := exists_parts_of_segParse_ok hp
  have hraw : rawLen l ≤ 40 := by
    have hle := (scanned_of_optsDecode hl).rawLen_le
    have hlt := h.dataOffset_lt
    omega
  obtain ⟨hle, hsame, -⟩ := optionEncodeAfterDecode s.params.pad ob l hl (by omega)
  obtain ⟨f, c, hbytes, hob', hres', hflags', hsum⟩ :=
    s.exists_reserialized_parts h (pay := pay) hpay hraw src dst proto
  obtain ⟨hbyte12, hbyte13⟩ := low_bits_eq (hres'.trans hres.symm) hflags'
  generalize ((s.deserialized (h.parsed l pay)).attach src dst proto).segment = B' at hbytes hsum
  subst hbytes
  intro d d' ph
  -- Both sequences are now a header, an options field and the payload `pay`: the clauses compare the parts.
  have hd : d = h.dataOffset := h.dataOffset_byte _
  have hd' : d' = dataOffsetOf f := WireHeader.dataOffset_byte _ _
  rw [hd, hd', WireHeader.options_eq hob, WireHeader.payload_eq hob]
  have hopts' := WireHeader.options_eq (pay := pay) (h := { h with offsetFlags := f, checksum := c }) hob'
  have hpay' := WireHeader.payload_eq (pay := pay) (h := { h with offsetFlags := f, checksum := c }) hob'
  refine ⟨rfl, hbyte12, congrArg (· :: be16 h.win) hbyte13, rfl, by omega, hl, hopts', hpay', fun h0 => ?_,
    (WireHeader.u16be_checksum _ _).trans hsum⟩
  have hfield : optsEncode s.params.pad l = ob := hsame h0
  rw [hfield] at hob'
  exact ⟨by omega, hopts'.trans hfield⟩

/-- Settles O50: the terms of the statement are the pieces of `State.segment`. -/
theorem serializeWritesSegment : Obligations.SerializeWritesSegment := by
  intro s hok hcan
  obtain ⟨hlow, hhigh⟩ := State.dataOffset_bounds hok.opts.2
  refine ⟨s.memRead .paybuf 0 s.paylen.toNat, s.serialized, s.shows_memRead .paybuf _, ?_⟩
  intro ob dataOffset hdr ph out
  have hof : BitVec.ofNat 16 (dataOffset * 4096 + s.flags.toNat) = s.offsetFlags := s.offsetFlags_eq_ofNat.symm
  have hhdr (c : Half) : hdr c = (s.wireHeader c).bytes := by
    simp only [hdr, hof]
    rfl
  have hph : ph = s.pseudoHeader := by
    rw [s.pseudoHeader_eq, ← s.segmentLength_eq]
    rfl
  have hout : out = s.segment := by
    simp only [out, hhdr, hph]
    rfl
  rw [hout]
  obtain ⟨hbelow, habove⟩ := s.lookup_serialized
  exact ⟨optsEncode_length_mod _ _, optsEncode_length_le _ hok.opts.2, hlow, Nat.le_of_lt_succ hhigh, s.segment_length,
    hok.exec_segEnc hcan, State.serialized_seglen ((hok.segment_length_le hcan).trans (by decide)), hbelow, habove, rfl⟩

/-- Settles O51: the parts of `State.segment` are found by the data offset. -/
theorem serializedSegmentProperties : Obligations.SerializedSegmentProperties := by
  intro s t hok h h0
  obtain ⟨hcan, hcap, rfl⟩ := serialized_of_exec_segEnc h h0
  obtain ⟨l, hl⟩ := exists_optsDecode_optsEncode s.params.pad hok.opts.1
  obtain ⟨hlow, hhigh⟩ := State.dataOffset_bounds hok.opts.2
  obtain ⟨hd, hres, hflags⟩ := State.offsetFlags_fields hhigh
  have hlen := s.segment_length
  refine ⟨s.segment, (State.serialized_seglen hcap).symm, s.lookup_serialized.1, ?_⟩
  intro ob dataOffset ph
  have hph : ph = s.pseudoHeader := by rw [s.pseudoHeader_eq, ← hlen]
  have hbytes : s.segment = _ := s.segmentBytes_eq_bytes (s.memRead .paybuf 0 s.paylen.toNat)
  have hsum := s.checksum_pseudoHeader_segmentBytes (s.memRead .paybuf 0 s.paylen.toNat)
  generalize s.segmentChecksum (s.memRead .paybuf 0 s.paylen.toNat) = c at hbytes
  have hob := State.wireHeader_dataOffset hok.opts.2 c
  have hoffset : dataOffset = (s.wireHeader c).dataOffset := by
    simp only [dataOffset, hbytes]
    exact WireHeader.dataOffset_byte _ _
  have hoffset' : dataOffset = s.dataOffset := hoffset.trans hd
  have hmul : dataOffset * 4 = 4 * (s.wireHeader c).dataOffset := by rw [hoffset, Nat.mul_comm]
  have ⟨_, _, hmin, hmax⟩ := hcan
  refine ⟨hlen, hlen ▸ hmin, hlen ▸ hmax, ?_, hoffset' ▸ hlow, ?_, ?_, ?_, ?_, ?_, hph ▸ hsum, _,
    hok.exec_segDec_serialized hcan hl, rfl⟩
  · rw [hoffset', hlen, ← s.segmentLength_eq, State.segmentLength]
  · omega
  · rw [hbytes]
    exact (reserved_byte _).trans hres
  · rw [hbytes, WireHeader.u16be_offsetFlags, and_flagsMask]
    exact congrArg _ hflags
  · rw [List.drop_take, hmul, hbytes, WireHeader.options_eq hob]
    rfl
  · rw [hmul, hbytes, WireHeader.payload_eq hob]
    exact s.shows_memRead .paybuf _

/-- Settles O54: an error changes no buffer, and a success stores into PAYBUF alone; the parse is the same. -/
theorem parseIgnoresChecksum : Obligations.ParseIgnoresChecksum := by
  intro s t b c h
  have hparse : segParse ((s.memWrite .segbuf 16 [b, c]).memRead .segbuf 0 s.seglen.toNat) =
      segParse (s.memRead .segbuf 0 s.seglen.toNat) := by
    refine segParse_congr (by simp) fun i h16 h17 => ?_
    have hbyte : Memory.lookup ((s.memWrite .segbuf 16 [b, c]).buf .segbuf) i = Memory.lookup (s.buf .segbuf) i := by
      rw [State.lookup_memWrite, if_neg (by simp; omega)]
    rw [State.memRead_getElem?, State.memRead_getElem?, Nat.zero_add, State.readByte, State.readByte, hbyte]
    rfl
  obtain ⟨hs, ⟨cause, rfl, hc⟩ | ⟨p, hp, -, rfl⟩⟩ := exec_next h
  · rw [← hparse] at hc
    exact exec_segDec_of_error hs hc
  · rw [← hparse] at hp
    exact exec_segDec_of_ok hs hp

/-- Settles O55: the loaded descriptor has LL_ATTACHED 0, which is SEG.ENC's first test. -/
theorem parseDetachesLowerLayer : Obligations.ParseDetachesLowerLayer := by
  intro s t h h0
  obtain ⟨p, -, -, rfl⟩ := deserialized_of_exec_segDec h h0
  exact ⟨rfl, rfl, rfl, rfl, rfl, exec_segEnc_of_detached rfl⟩

end Sys2Proof.Machine
end

section
/-! PROOFS. How an error ends a host write (spec/60_exceptions.md R173). -/

namespace Sys2Proof.Machine

/-- A command ends with success, or its error has written STATUS alone. -/
theorem status_eq_zero_or_eq_ended_of_exec {i : Instr} {s t : State} (h : exec i s = .next t) :
    t.status = 0x00#8 ∨ t = s.ended t.status := by
  have heffect := exec_next h
  cases i with
  | bsNew | bsSet | bsClr | bsTst | flgFromint | flgPack | optClr => exact .inl (congrArg State.status heffect)
  | optEnc | csum =>
    obtain ⟨-, rfl⟩ := heffect
    exact .inl rfl
  | optPush =>
    obtain ⟨c, rfl, -⟩ | ⟨-, -, -, rfl⟩ := heffect
    · exact .inr rfl
    · exact .inl rfl
  | optGet k =>
    obtain rfl | ⟨r, -, -, -, rfl⟩ := heffect
    · exact .inr rfl
    · exact .inl rfl
  | optDec =>
    obtain ⟨-, ⟨c, rfl, -⟩ | ⟨l, -, rfl⟩⟩ := heffect
    · exact .inr rfl
    · exact .inl rfl
  | segEnc =>
    obtain ⟨c, rfl, -⟩ | ⟨-, -, -, -, -, -, rfl⟩ := heffect
    · exact .inr rfl
    · exact .inl rfl
  | segDec =>
    obtain ⟨-, ⟨c, rfl, -⟩ | ⟨p, -, -, rfl⟩⟩ := heffect
    · exact .inr rfl
    · exact .inl rfl

/-- Settles O18: of the ends of a `WR` or `WRB`, a refusal changes STATUS alone and a store leaves 0x00 there; a command
does one or the other. -/
theorem errorsChangeOnlyStatus : Obligations.ErrorsChangeOnlyStatus := by
  intro s t herr
  refine ⟨fun off v h => ?_, fun id addr b h => ?_⟩
  · obtain ⟨c, -, rfl⟩ | ⟨i, -, -, -, -, hexec⟩ | ⟨r, top, c, -, -, -, -, rfl⟩ := serve_next h
    · rfl
    · exact (status_eq_zero_or_eq_ended_of_exec hexec).resolve_left herr
    · exact absurd rfl herr
  · obtain ⟨c, -, rfl⟩ | ⟨sp, -, -, -, -, -, rfl⟩ := serve_next h
    · rfl
    · exact absurd rfl herr

end Sys2Proof.Machine
end

section
/-! PROOFS. The commands issued right after reset (spec/70_reset_and_hazards.md R192). -/

namespace Sys2Proof.Machine

/-! ### What the commands meet: an empty segment, an empty option list, an EndOfList in the window -/

/-- SEGLEN is 0 after reset, so there is no byte to read, written or not. -/
@[simp] theorem State.memRead_segbuf_resetOf (p : Params) :
    (State.resetOf p).memRead .segbuf 0 (State.resetOf p).seglen.toNat = [] := rfl

theorem checksum_nil : checksum [] = 0xFFFF#16 := (checksum_eq_top_iff []).mpr fun _ h => absurd h List.not_mem_nil

/-- The empty list is aligned as it stands, so PAD_BYTE does not show (R117). -/
theorem optsEncode_nil (pad : PadByte) : optsEncode pad [] = [] := optsEncode_eq_optsRaw pad rfl

@[simp] theorem State.windowRecord_resetOf (p : Params) : (State.resetOf p).windowRecord = ⟨0#8, []⟩ := rfl

theorem State.windowEncLen_resetOf (p : Params) : (State.resetOf p).windowEncLen = 1 := rfl

/-- Mask 1 is a single bit, so ISSET_MULTI does not show (R93). -/
theorem bitsTst_one_resetOf (p : Params) :
    bitsTst (State.resetOf p).params.issetMulti (State.resetOf p).bs 1#16 = false :=
  bitsTst_twoPow _ 0#16 (k := 0) (by decide)

/-! ### The commands whose inputs those are -/

theorem exec_segDec_resetOf (p : Params) : exec .segDec (State.resetOf p) = .next ((State.resetOf p).ended 0x21#8) :=
  exec_segDec_of_error (Nat.zero_le _) (segParse_of_short (by simp))

theorem exec_csum_resetOf (p : Params) :
    exec .csum (State.resetOf p) = .next (({ State.resetOf p with csumres := 0xFFFF#16 } : State).ended 0x00#8) := by
  rw [exec_csum (Nat.zero_le _), State.memRead_segbuf_resetOf, checksum_nil]

/-- The store of no byte and OPTLEN 0 are what reset left. -/
theorem exec_optEnc_resetOf (p : Params) : exec .optEnc (State.resetOf p) = .next ((State.resetOf p).ended 0x00#8) := by
  have hnil : optsEncode (State.resetOf p).params.pad (State.resetOf p).opts = [] := optsEncode_nil p.pad
  rw [exec_optEnc (Nat.zero_le _), hnil]
  rfl

theorem exec_optPush_resetOf (p : Params) :
    exec .optPush (State.resetOf p) = .next (({ State.resetOf p with opts := [⟨0#8, []⟩] } : State).ended 0x00#8) := by
  have hroom : rawLen (State.resetOf p).opts + (State.resetOf p).windowEncLen ≤ 40 := by
    rw [State.windowEncLen_resetOf]
    exact Nat.le_add_left 1 39
  rw [exec_optPush_of_wellFormed (fun _ => rfl) (Nat.zero_le _), if_neg hroom.not_gt, State.windowRecord_resetOf]
  rfl

/-! ### The statement -/

/-- Settles O17: SEG.ENC finds no lower layer, OPT.DEC an empty field, OPT.GET no record, BS.TST no bit; the other four
commands have their lemma above. -/
theorem resetStateCommands : Obligations.ResetStateCommands := by
  rintro p _ rfl
  exact ⟨exec_segEnc_of_detached rfl, exec_segDec_resetOf p, exec_csum_resetOf p, exec_optEnc_resetOf p,
    exec_optDec_of_ok (Nat.zero_le _) optsDecode_nil, exec_optPush_resetOf p, exec_optGet_of_none rfl,
    exec_bsTst (bitsTst_one_resetOf p)⟩

end Sys2Proof.Machine
end

section
/-! PROOFS. The statements about decoding and encoding (spec/30_encoding.md R60 to R63). -/

namespace Sys2Proof.Machine

/-- Settles O1: the converse half of `decode_eq_ok_iff` at the command's own word. -/
theorem decodeEncodeRoundTrip : Obligations.DecodeEncodeRoundTrip := fun _ hwf => decode_eq_ok_iff.mpr ⟨hwf, rfl⟩

/-- Settles O2: a word that decodes lies in a row of the map, and the row's form rebuilds it. -/
theorem encodeDecodeRoundTrip : Obligations.EncodeDecodeRoundTrip := fun _ _ => decode_eq_ok_iff.mp

/-- Settles O5: the nine commands are read off `decode_eq_ok_iff`, the four refusals off the test each word fails. -/
theorem writtenOutWordsDecode : Obligations.WrittenOutWordsDecode := by
  refine ⟨?_, ?_, ?_, ?_, ?_, ?_, ?_, ?_, ?_, decode_pack_of_high_imm_ne_zero rfl rfl (by decide),
    decode_eq_unknownOpcode_iff.mpr (by decide), decode_of_rsv_ne_zero (by decide) (by decide),
    decode_noOperand_of_imm_ne_zero (by decide) rfl (by decide)⟩
  all_goals exact decode_eq_ok_iff.mpr ⟨rfl, rfl⟩

end Sys2Proof.Machine
end

section
/-! PROOFS. What each read and each buffer request does (spec/20_memory.md R42, R45 to R47, spec/10_state.md R23). -/

namespace Sys2Proof.Machine

/-! ### Reads in the words of the statements -/

theorem State.answer_eq_told (s : State) (r : Reply) : s.answer r = s.told r := rfl

theorem serve_rd (r : Register) (s : State) : serve (.rd r.offset) s = .next (s.told (.reg (s.readReg r))) := by
  simp only [serve, serveRd, regAt_offset_self, State.answer_eq_told]

/-- RD answers at every offset, mapped or not. -/
theorem exists_serve_rd (off : Nat) (s : State) : ∃ v, serve (.rd off) s = .next (s.told (.reg v)) := by
  simp only [serve, serveRd, State.answer_eq_told]
  split <;> exact ⟨_, rfl⟩

/-- RDB answers in every space and at every address. -/
theorem exists_serve_rdb (id : Nat) (addr : WData) (s : State) :
    ∃ b, serve (.rdb id addr) s = .next (s.told (.byte b)) := by
  simp only [serve, serveRdb, State.answer_eq_told]
  split
  · exact ⟨_, rfl⟩
  · split <;> exact ⟨_, rfl⟩

/-! ### Spaces by their ids -/

@[simp] theorem spaceOf_id (sp : Space) : spaceOf sp.id = some sp := by cases sp <;> rfl

theorem spaceOf_eq_none {id : Nat} (h : 4 ≤ id) : spaceOf id = none := by
  obtain ⟨n, rfl⟩ := Nat.exists_eq_add_of_le' h
  rfl

/-- The table of the statements has the id and the capacity of each buffer. -/
theorem exists_eq_of_mem_spaceTable {row : Nat × Space × Int} (h : row ∈ spaceTable) :
    ∃ sp : Space, row = (sp.id, sp, (sp.capacity : Int)) := by
  simp only [spaceTable, List.mem_cons, List.not_mem_nil, or_false] at h
  obtain rfl | rfl | rfl | rfl := h
  · exact ⟨.segbuf, rfl⟩
  · exact ⟨.paybuf, rfl⟩
  · exact ⟨.optbuf, rfl⟩
  · exact ⟨.owval, rfl⟩

/-! ### One byte of a buffer -/

theorem serve_wrb_unknown {id : Nat} (h : 4 ≤ id) (addr b : WData) (s : State) :
    serve (.wrb id addr b) s = .next (s.ended 0x73#8) := by
  simp only [serve, serveWrb, spaceOf_eq_none h, State.raise_eq_ended, Cause.code]

theorem serve_wrb (sp : Space) (addr b : WData) (s : State) :
    serve (.wrb sp.id addr b) s =
      if addr.toInt < 0 ∨ (sp.capacity : Int) ≤ addr.toInt ∨ b.toInt < 0 ∨ 255 < b.toInt then .next (s.ended 0x13#8)
      else .next ((s.memWrite sp addr.toInt.toNat [BitVec.ofInt 8 b.toInt]).ended 0x00#8) := by
  simp only [serve, serveWrb, spaceOf_id, State.raise_eq_ended, State.succeed_eq_ended, Cause.code]

theorem serve_rdb_of_lookup {sp : Space} {addr : WData} {s : State} {b : Byte} (h0 : 0 ≤ addr.toInt)
    (hcap : addr.toInt < sp.capacity) (hb : Memory.lookup (s.buf sp) addr.toInt.toNat = some b) :
    serve (.rdb sp.id addr) s = .next (s.told (.byte b)) := by
  simp only [serve, serveRdb, spaceOf_id, State.answer_eq_told, State.readByte_of_lookup hb]
  exact if_neg (by omega)

@[simp] theorem State.status_ended (s : State) (code : BitVec 8) : (s.ended code).status = code := rfl

/-- The end of a request leaves the buffers. -/
@[simp] theorem State.buf_ended (s : State) (code : BitVec 8) (sp : Space) : (s.ended code).buf sp = s.buf sp := by
  cases sp <;> rfl

/-! ### The option window as words (spec/10_state.md R23) -/

theorem State.readReg_owW_of_lookup {s : State} {j : Fin 10} {B : List Byte} (hlen : B.length = 4)
    (hB : ∀ i, i < 4 → Memory.lookup s.owval (4 * j.val + i) = B[i]?) : s.readReg (.owW j) = u32be B 0 := by
  have hread : s.memRead .owval (4 * j.val) B.length = B := by
    refine State.memRead_eq_of_lookup fun i hi => ?_
    rw [← List.getElem?_eq_getElem hi]
    exact hB i (hlen ▸ hi)
  rw [hlen] at hread
  rw [State.readReg, hread]

/-- What a write to OW_W[j] leaves in OWVAL. -/
theorem State.lookup_owval_storeReg_owW (s : State) (j : Fin 10) (n a : Nat) :
    Memory.lookup (s.storeReg (.owW j) n).owval a =
      if 4 * j.val ≤ a ∧ a < 4 * j.val + 4 then (be32 (BitVec.ofNat 32 n))[a - 4 * j.val]?
      else Memory.lookup s.owval a :=
  s.lookup_memWrite .owval (4 * j.val) (be32 (BitVec.ofNat 32 n)) a

theorem serve_wr_owW (j : Fin 10) (v : Word) (s : State) :
    serve (.wr (Register.owW j).offset (v.setWidth 64)) s =
      .next ((s.storeReg (.owW j) v.toNat).ended 0x00#8) := by
  obtain ⟨h0, h1⟩ := toInt_setWidth_word_bounds v
  rw [serve_wr_checked (.owW j) rfl fun _ => rfl, if_neg (by omega), toInt_setWidth_word, Int.toNat_natCast]

end Sys2Proof.Machine
end

section
/-! PROOFS. The statements about reads and buffer requests (spec/20_memory.md R42, R45 to R47, R50). -/

namespace Sys2Proof.Machine

/-- Settles O11: `serve_rd` at each register; OPTCNT is as wide as an OPTS-OK list needs. -/
theorem registerReads : Obligations.RegisterReads := by
  intro s
  refine ⟨serve_rd .cmd s, serve_rd .status s, serve_rd .tst s, serve_rd .csumres s, serve_rd .bs s, serve_rd .sport s,
    serve_rd .dport s, serve_rd .seq s, serve_rd .ack s, serve_rd .flags s, serve_rd .win s, serve_rd .urg s,
    serve_rd .llAttached s, serve_rd .llFamily s, serve_rd .llSrc s, serve_rd .llDst s, serve_rd .llProto s,
    serve_rd .paylen s, serve_rd .seglen s, serve_rd .optlen s, fun hopts => ?_, serve_rd .owKind s,
    serve_rd .owVlen s, fun j B hB hlen => ?_, fun off => exists_serve_rd off s⟩
  · have hcnt : s.readReg .optcnt = BitVec.ofNat 32 s.opts.length := by
      rw [← State.optcnt_toNat hopts.2, BitVec.ofNat_toNat]
      rfl
    exact hcnt ▸ serve_rd .optcnt s
  · exact State.readReg_owW_of_lookup hlen hB ▸ serve_rd (.owW j) s

/-- Settles O10: the write is `storeReg`, and the read is the word of the four bytes. -/
theorem windowWordsAliasBytes : Obligations.WindowWordsAliasBytes := by
  intro s j
  refine ⟨fun v => ⟨_, serve_wr_owW j v s, ?_⟩, fun b0 b1 b2 b3 h0 h1 h2 h3 => ?_⟩
  · have hlookup := s.lookup_owval_storeReg_owW j v.toNat
    rw [BitVec.ofNat_toNat, BitVec.setWidth_eq] at hlookup
    have hbyte (i : Nat) (hi : i < 4) :
        Memory.lookup (s.storeReg (.owW j) v.toNat).owval (4 * j.val + i) = (be32 v)[i]? := by
      rw [hlookup, if_pos (by omega), Nat.add_sub_cancel_left]
    refine ⟨hbyte 0 (by omega), hbyte 1 (by omega), hbyte 2 (by omega), hbyte 3 (by omega), fun a ha => ?_, rfl, ?_⟩
    · exact (hlookup a).trans (if_neg (by omega))
    · have hread := State.readReg_owW_of_lookup (s := (s.storeReg (.owW j) v.toNat).ended 0x00#8) (be32_length v) hbyte
      have hword : u32be (be32 v) 0 = v := append_bytes32 v
      exact (serve_rd (.owW j) _).trans (by rw [hread, hword])
  · have hB (i : Nat) (hi : i < 4) : Memory.lookup s.owval (4 * j.val + i) = [b0, b1, b2, b3][i]? := by
      interval_cases i <;> assumption
    have hword : s.readReg (.owW j) = b0 ++ b1 ++ b2 ++ b3 := State.readReg_owW_of_lookup (B := [b0, b1, b2, b3]) rfl hB
    exact hword ▸ serve_rd (.owW j) s

/-- Settles O12: `serve_wrb` in and out of range, and the bytes of `MemWrite`. -/
theorem bufferByteWrites : Obligations.BufferByteWrites := by
  intro s addr b
  refine ⟨fun id hid => serve_wrb_unknown hid addr b s, fun row hrow => ?_⟩
  obtain ⟨sp, rfl⟩ := exists_eq_of_mem_spaceTable hrow
  dsimp only
  refine ⟨fun hbad => by rw [serve_wrb, if_pos hbad], fun h0 hcap hb0 hb1 => ?_⟩
  have hlookup := s.lookup_memWrite sp addr.toInt.toNat [BitVec.ofInt 8 b.toInt]
  refine ⟨_, by rw [serve_wrb, if_neg (by omega)], ?_, fun a ha => ?_, fun sq hsq => ?_, ?_⟩
  · rw [State.buf_ended, hlookup, if_pos (by simp), Nat.sub_self]
    rfl
  · rw [State.buf_ended, hlookup, if_neg (by rw [List.length_singleton]; omega)]
  · rw [State.buf_ended, State.buf_memWrite_ne s _ _ hsq]
  · rw [State.buf_ended, State.memWrite, State.buf_setBuf_self]

/-- Settles O13: RDB always answers, and of a written byte it answers that byte. -/
theorem bufferByteReads : Obligations.BufferByteReads := by
  intro s addr
  refine ⟨fun id => exists_serve_rdb id addr s, fun row hrow h0 hcap b hb => ?_⟩
  obtain ⟨sp, rfl⟩ := exists_eq_of_mem_spaceTable hrow
  exact serve_rdb_of_lookup h0 hcap hb

/-- Settles O14: the bytes below, in and above the range by `lookup_memWrite`, the read by `memRead_memWrite`. -/
theorem memWriteStoresItsBytes : Obligations.MemWriteStoresItsBytes := by
  intro s sp a B
  refine ⟨fun i hi => ?_, fun x hx => ?_, fun sq hsq => s.buf_memWrite_ne a B hsq, ?_, s.memRead_memWrite sp a B⟩
  · rw [State.lookup_memWrite, if_pos (by omega), Nat.add_sub_cancel_left]
  · rw [State.lookup_memWrite, if_neg (by omega)]
  · rw [State.memWrite, State.buf_setBuf_self]

end Sys2Proof.Machine
end

section
/-! PROOFS. SEG.ENC, whatever its tests find (spec/45_segment.md R143, R145, R146). -/

namespace Sys2Proof.Machine

theorem exec_segEnc_of_wrongFamily {s : State} (hatt : s.llAttached ≠ 0#1) (hfam : s.llFamily ≠ 4#8) :
    exec .segEnc s = .next (s.ended 0x42#8) := by
  rw [exec, execSegEnc, if_neg hatt, if_pos hfam]
  rfl

theorem exec_segEnc_of_badLength {s : State} (hatt : s.llAttached ≠ 0#1) (hfam : s.llFamily = 4#8)
    (hpay : s.paylen.toNat ≤ 65527)
    (hlen : s.serializedLength < s.params.minSegLen ∨ s.params.maxSegLen < s.serializedLength) :
    exec .segEnc s = .next (s.ended 0x51#8) := by
  rw [exec, execSegEnc, if_neg hatt, if_neg (not_not.mpr hfam), State.reading_of_le hpay]
  rw [← s.segment_length] at hlen
  exact if_pos hlen

/-- SEG.ENC on a good state: its three tests in their order, then the segment. -/
theorem State.Ok.exec_segEnc_eq {s : State} (hok : s.Ok) :
    exec .segEnc s =
      if s.llAttached = 0#1 then .next (s.ended 0x41#8)
      else if s.llFamily ≠ 4#8 then .next (s.ended 0x42#8)
      else if s.serializedLength < s.params.minSegLen ∨ s.params.maxSegLen < s.serializedLength then
        .next (s.ended 0x51#8)
      else .next s.serialized := by
  by_cases hatt : s.llAttached = 0#1
  · rw [if_pos hatt, exec_segEnc_of_detached hatt]
  rw [if_neg hatt]
  by_cases hfam : s.llFamily = 4#8
  · rw [if_neg (not_not.mpr hfam)]
    by_cases hlen : s.serializedLength < s.params.minSegLen ∨ s.params.maxSegLen < s.serializedLength
    · rw [if_pos hlen, exec_segEnc_of_badLength hatt hfam hok.paylen hlen]
    · rw [if_neg hlen, hok.exec_segEnc ⟨(BitVec.eq_zero_or_eq_one _).resolve_left hatt, hfam, by omega, by omega⟩]
  · rw [if_pos hfam, exec_segEnc_of_wrongFamily hatt hfam]

/-- Settles O49: one lemma for each refusal. -/
theorem serializeRefusals : Obligations.SerializeRefusals := by
  intro s
  have hne (hatt : s.llAttached = 1#1) : s.llAttached ≠ 0#1 := by simp [hatt]
  exact ⟨exec_segEnc_of_detached, fun hatt hfam => exec_segEnc_of_wrongFamily (hne hatt) hfam,
    fun hatt hfam hpay hlen => exec_segEnc_of_badLength (hne hatt) hfam hpay hlen⟩

end Sys2Proof.Machine
end

section
/-! PROOFS. What the invariant `State.Ok` asks of a state, kept by each update of the state (spec/10_state.md sections 4
to 6). -/

namespace Sys2Proof.Machine

/-! ### The ends of a request -/

theorem State.Ok.raise {s : State} (h : s.Ok) (c : Cause) : (s.raise c).Ok := { h with status := ⟨c, rfl⟩ }

theorem State.Ok.succeed {s : State} (h : s.Ok) : s.succeed.Ok := { h with status := ⟨.success, rfl⟩ }

theorem State.Ok.answer {s : State} (h : s.Ok) (r : Reply) : (s.answer r).Ok := { h with }

/-- The reset values are legal for any admissible parameters (spec/10_state.md R27). -/
theorem State.ok_resetOf {p : Params} (h : p.Ok) : (State.resetOf p).Ok where
  params := h
  status := ⟨.success, rfl⟩
  paylen := Nat.zero_le _
  seglen := Nat.zero_le _
  optlen := Nat.zero_le _
  opts := ⟨List.forall_mem_nil _, Nat.zero_le _⟩
  segbuf := State.buf_resetOf_wf p .segbuf
  paybuf := State.buf_resetOf_wf p .paybuf
  optbuf := State.buf_resetOf_wf p .optbuf
  owval := State.buf_resetOf_wf p .owval

/-- A reset keeps the parameters, so it keeps their constraint. -/
theorem State.Ok.resetEvent {s : State} (h : s.Ok) : s.resetEvent.Ok := { State.ok_resetOf h.params with }

/-! ### Stores -/

theorem State.Ok.memWrite {s : State} (h : s.Ok) {sp : Space} {a : Nat} {B : List Byte}
    (hB : a + B.length ≤ sp.capacity) : (s.memWrite sp a B).Ok := by
  cases sp with
  | segbuf => exact { h with segbuf := Memory.store_wf a B h.segbuf hB }
  | paybuf => exact { h with paybuf := Memory.store_wf a B h.paybuf hB }
  | optbuf => exact { h with optbuf := Memory.store_wf a B h.optbuf hB }
  | owval => exact { h with owval := Memory.store_wf a B h.owval hB }

theorem State.Ok.setOpts {s : State} (h : s.Ok) {l : List OptRecord} (hl : OptsOk l) :
    ({ s with opts := l } : State).Ok :=
  { h with opts := hl }

/-- Storing a number keeps its low bits, so a bound on the number bounds the register. -/
theorem toNat_ofNat_le {w n top : Nat} (h : n ≤ top) : (BitVec.ofNat w n).toNat ≤ top := by
  rw [BitVec.toNat_ofNat]
  exact (Nat.mod_le _ _).trans h

/-- A value in the range of R43 keeps PAYLEN, SEGLEN and OPTLEN legal; OW_W[j] lies inside OWVAL. -/
theorem State.Ok.storeReg {s : State} (h : s.Ok) {r : Register} {top : Nat} {c : Cause} {n : Nat}
    (hr : r.access = .checked top c) (hn : n ≤ top) : (s.storeReg r n).Ok := by
  cases r with
  | paylen =>
    cases hr
    exact { h with paylen := toNat_ofNat_le hn }
  | seglen =>
    cases hr
    exact { h with seglen := toNat_ofNat_le hn }
  | optlen =>
    cases hr
    exact { h with optlen := toNat_ofNat_le hn }
  | owW j => exact h.memWrite (by simp [Space.capacity]; omega)
  | _ => exact { h with }

end Sys2Proof.Machine
end

section
/-! PROOFS. The invariant `State.Ok`: it holds at reset, every step keeps it, and a state that has it never stops
(spec/10_state.md sections 4 to 6, spec/60_exceptions.md R181). -/

namespace Sys2Proof.Machine

/-! ### The lists a command stores -/

/-- OPT.PUSH's tests make the window's record well-formed (spec/43_options.md R112). -/
theorem State.windowRecord_ok {s : State} (h : s.owVlen.toNat ≤ 38) : s.windowRecord.Ok := by
  by_cases hk : 2 ≤ s.owKind.toNat
  · rw [State.windowRecord, if_pos hk]
    exact ⟨fun hlt => absurd hlt hk.not_gt, (s.memRead_length _ _ _).trans_le h⟩
  · rw [State.windowRecord, if_neg hk]
    exact ⟨fun _ => rfl, Nat.zero_le _⟩

theorem State.optsOk_append_windowRecord {s : State} (h : OptsOk s.opts) (hn : s.owVlen.toNat ≤ 38)
    (hroom : rawLen s.opts + s.windowEncLen ≤ 40) : OptsOk (s.opts ++ [s.windowRecord]) :=
  ⟨List.forall_mem_append.mpr ⟨h.1, List.forall_mem_singleton.mpr (State.windowRecord_ok hn)⟩,
    s.rawLen_append_windowRecord.trans_le hroom⟩

/-- The data offset has four bits, so an options field has at most 40 bytes (spec/30_encoding.md R66). -/
theorem optsOk_of_segParse_ok {B : List Byte} {p : Parsed} (hp : segParse B = .ok p) : OptsOk p.opts := by
  obtain ⟨h, ob, pay, l, -, -, hob, hl, rfl⟩ := exists_parts_of_segParse_ok hp
  have hlt := h.dataOffset_lt
  exact (decodedListIsWellFormed ob l (by omega) hl).1

theorem State.Ok.loadParsed {s : State} (h : s.Ok) {p : Parsed} (hopts : OptsOk p.opts)
    (hpay : p.payload.length ≤ 65527) : (s.loadParsed p).Ok :=
  { h with opts := hopts, paylen := toNat_ofNat_le hpay }

/-! ### Every step keeps it -/

/-- Every command keeps the invariant: an error stores nothing, a success stores legal values and stays inside its
buffer. -/
theorem State.Ok.of_exec {i : Instr} {s t : State} (hok : s.Ok) (h : exec i s = .next t) : t.Ok := by
  have heffect := exec_next h
  cases i with
  | bsNew | bsSet | bsClr | bsTst | flgFromint | flgPack =>
    subst heffect
    exact State.Ok.succeed { hok with }
  | optClr =>
    subst heffect
    exact (hok.setOpts ⟨List.forall_mem_nil _, Nat.zero_le _⟩).succeed
  | optPush =>
    obtain ⟨c, rfl, -⟩ | ⟨-, hn, hroom, rfl⟩ := heffect
    · exact hok.raise c
    · exact (hok.setOpts (State.optsOk_append_windowRecord hok.opts hn hroom)).succeed
  | optGet k =>
    obtain rfl | ⟨r, -, -, hlen, rfl⟩ := heffect
    · exact hok.raise _
    · have hwindow : ({ s with owKind := r.kind, owVlen := BitVec.ofNat 8 r.value.length } : State).Ok := { hok with }
      exact (hwindow.memWrite (by rwa [Nat.zero_add])).succeed
  | optEnc =>
    obtain ⟨hlen, rfl⟩ := heffect
    have hstored := hok.memWrite (sp := .optbuf) (a := 0) (by rwa [Nat.zero_add])
    exact State.Ok.succeed { hstored with optlen := toNat_ofNat_le hlen }
  | optDec =>
    obtain ⟨hlen, ⟨c, rfl, -⟩ | ⟨l, hl, rfl⟩⟩ := heffect
    · exact hok.raise c
    · have hB : (s.memRead .optbuf 0 s.optlen.toNat).length ≤ 40 := (s.memRead_length _ _ _).trans_le hlen
      exact (hok.setOpts (decodedListIsWellFormed _ l hB hl).1).succeed
  | csum =>
    obtain ⟨-, rfl⟩ := heffect
    exact State.Ok.succeed { hok with }
  | segEnc =>
    obtain ⟨c, rfl, -⟩ | ⟨-, -, -, -, -, hlen, rfl⟩ := heffect
    · exact hok.raise c
    · have hstored := hok.memWrite (sp := .segbuf) (a := 0) (by rwa [Nat.zero_add])
      exact State.Ok.succeed { hstored with seglen := toNat_ofNat_le hlen }
  | segDec =>
    obtain ⟨-, ⟨c, rfl, -⟩ | ⟨p, hp, hlen, rfl⟩⟩ := heffect
    · exact hok.raise c
    · exact ((hok.loadParsed (optsOk_of_segParse_ok hp) hlen).memWrite (by rwa [Nat.zero_add])).succeed

/-- Every request keeps the invariant: R43 and the capacity bound what a write stores, and a read stores nothing. -/
theorem State.Ok.of_serve {r : Request} {s t : State} (hok : s.Ok) (h : serve r s = .next t) : t.Ok := by
  have hserved := serve_next h
  cases r with
  | wr off v =>
    obtain ⟨c, -, rfl⟩ | ⟨i, -, -, -, -, hexec⟩ | ⟨r, top, c, -, haccess, -, hle, rfl⟩ := hserved
    · exact hok.raise c
    · exact hok.of_exec hexec
    · exact (hok.storeReg haccess (by omega)).succeed
  | rd off =>
    obtain ⟨v, rfl⟩ := hserved
    exact hok.answer _
  | wrb space addr b =>
    obtain ⟨c, -, rfl⟩ | ⟨sp, -, hlow, hhigh, -, -, rfl⟩ := hserved
    · exact hok.raise c
    · exact (hok.memWrite (by rw [List.length_singleton]; omega)).succeed
  | rdb space addr =>
    obtain ⟨b, rfl⟩ := hserved
    exact hok.answer _

/-- Settles O21: a step does nothing, serves a request, or is the reset. -/
theorem stepKeepsOk : Obligations.StepKeepsOk := by
  intro s t hok h
  obtain ⟨-, rfl⟩ | ⟨r, rest, -, hserve⟩ | ⟨rest, -, rfl⟩ := step_next h
  · exact hok
  · exact State.Ok.of_serve (s := { s with inputs := rest }) { hok with } hserve
  · exact State.Ok.resetEvent (s := { s with inputs := rest }) { hok with }

/-- Settles O22: `State.ok_resetOf`, at the default parameters and at any others. -/
theorem resetIsOk : Obligations.ResetIsOk := ⟨State.ok_resetOf (by decide), fun _ => State.ok_resetOf⟩

/-! ### A state that has it never stops -/

/-- No command reads or writes beyond a buffer from a good state (spec/20_memory.md R46, R47). -/
theorem State.Ok.exists_exec_eq_next {s : State} (hok : s.Ok) (i : Instr) : ∃ t, exec i s = .next t := by
  cases i with
  | bsNew | bsSet | bsClr | bsTst | flgFromint | flgPack | optClr => exact ⟨_, rfl⟩
  | optPush =>
    by_cases hbad : s.owKind.toNat < 2 ∧ s.owVlen.toNat ≠ 0 ∨ 38 < s.owVlen.toNat
    · exact ⟨_, exec_optPush_of_illFormed hbad⟩
    · rw [exec_optPush_of_wellFormed (by omega) (by omega)]
      split <;> exact ⟨_, rfl⟩
  | optGet k =>
    cases hr : s.opts[k.toNat]? with
    | none => exact ⟨_, exec_optGet_of_none hr⟩
    | some r =>
      have hle : r.value.length ≤ 38 := (hok.opts.1 r (List.mem_of_getElem? hr)).2
      exact ⟨_, exec_optGet_of_some hr (by omega)⟩
  | optEnc => exact ⟨_, exec_optEnc hok.opts.2⟩
  | optDec =>
    cases hl : optsDecode (s.memRead .optbuf 0 s.optlen.toNat) with
    | error c => exact ⟨_, exec_optDec_of_error hok.optlen hl⟩
    | ok l => exact ⟨_, exec_optDec_of_ok hok.optlen hl⟩
  | csum => exact ⟨_, exec_csum hok.seglen⟩
  | segEnc =>
    rw [hok.exec_segEnc_eq]
    split_ifs <;> exact ⟨_, rfl⟩
  | segDec =>
    cases hp : segParse (s.memRead .segbuf 0 s.seglen.toNat) with
    | error c => exact ⟨_, exec_segDec_of_error hok.seglen hp⟩
    | ok p => exact ⟨_, exec_segDec_of_ok hok.seglen hp⟩

theorem State.Ok.exists_writeCmd_eq_next {s : State} (hok : s.Ok) (v : WData) : ∃ t, writeCmd v s = .next t := by
  by_cases hv : v.toInt < 0 ∨ 4294967295 < v.toInt
  · exact ⟨_, writeCmd_of_out_of_range hv s⟩
  · cases hi : decode (BitVec.ofInt 32 v.toInt) with
    | error e => exact ⟨_, writeCmd_of_decode_error (by omega) (by omega) hi s⟩
    | ok i =>
      rw [writeCmd_of_decode_ok (by omega) (by omega) hi]
      exact hok.exists_exec_eq_next i

/-- Only a command can stop; every other request ends in a next state whatever its target. -/
theorem State.Ok.exists_serve_eq_next {s : State} (hok : s.Ok) (r : Request) : ∃ t, serve r s = .next t := by
  cases r with
  | wr off v =>
    cases hr : regAt off with
    | none =>
      simp only [serve, serveWr, hr]
      exact ⟨_, rfl⟩
    | some r =>
      obtain rfl := regAt_offset hr
      cases haccess : r.access with
      | executes =>
        obtain rfl := access_executes haccess
        exact hok.exists_writeCmd_eq_next v
      | readOnly => exact ⟨_, serve_wr_readOnly haccess v s⟩
      | checked top c =>
        rw [serve_wr_checked r haccess fun _ => rfl]
        split <;> exact ⟨_, rfl⟩
  | rd off =>
    obtain ⟨v, hv⟩ := exists_serve_rd off s
    exact ⟨_, hv⟩
  | wrb space addr b =>
    simp only [serve, serveWrb]
    split
    · exact ⟨_, rfl⟩
    · split <;> exact ⟨_, rfl⟩
  | rdb space addr =>
    obtain ⟨b, hb⟩ := exists_serve_rdb space addr s
    exact ⟨_, hb⟩

/-- Settles O23: the oldest input is a request, or a reset, which always answers. -/
theorem okStateNeverStops : Obligations.OkStateNeverStops := by
  intro s hok
  rw [step, takeInput]
  cases hin : s.inputs with
  | nil => exact ⟨s, rfl⟩
  | cons i rest =>
    cases i with
    | request r => exact State.Ok.exists_serve_eq_next (s := { s with inputs := rest }) { hok with } r
    | reset => exact ⟨_, rfl⟩

end Sys2Proof.Machine
end

section
/-! PROOFS. What each command writes, and the codes it ends with (spec/10_state.md R14 to R22, spec/60_exceptions.md
R171, R176). -/

namespace Sys2Proof.Machine

/-- Settles O25: an error writes STATUS alone; a success is one update of the state, and what it does not name is as
before. -/
theorem writersOfEachRegister : Obligations.WritersOfEachRegister := by
  intro i s t h
  have heffect := exec_next h
  cases i with
  | bsNew | bsSet | bsClr | bsTst | flgFromint | flgPack | optClr =>
    subst heffect
    simp
  | optPush =>
    obtain ⟨c, rfl, -⟩ | ⟨-, -, -, rfl⟩ := heffect <;> simp
  | optGet k =>
    obtain rfl | ⟨r, -, -, -, rfl⟩ := heffect <;> simp [State.memWrite]
  | optEnc =>
    obtain ⟨-, rfl⟩ := heffect
    simp [State.memWrite]
  | optDec =>
    obtain ⟨-, ⟨c, rfl, -⟩ | ⟨l, -, rfl⟩⟩ := heffect <;> simp
  | csum =>
    obtain ⟨-, rfl⟩ := heffect
    simp
  | segEnc =>
    obtain ⟨c, rfl, -⟩ | ⟨-, -, -, -, -, -, rfl⟩ := heffect <;> simp [State.memWrite]
  | segDec =>
    obtain ⟨-, ⟨c, rfl, -⟩ | ⟨p, -, -, rfl⟩⟩ := heffect <;> simp [State.memWrite, State.loadParsed]

/-- Settles O20: success is 0x00, and each error is one of the command's own. -/
theorem codesOfEachCommand : Obligations.CodesOfEachCommand := by
  intro i s t h
  have heffect := exec_next h
  cases i with
  | bsNew | bsSet | bsClr | bsTst | flgFromint | flgPack | optClr =>
    subst heffect
    simp [commandCodes]
  | optPush =>
    obtain ⟨c, rfl, rfl | rfl⟩ | ⟨-, -, -, rfl⟩ := heffect <;> simp [commandCodes, Cause.code]
  | optGet k =>
    obtain rfl | ⟨r, -, -, -, rfl⟩ := heffect <;> simp [commandCodes, Cause.code]
  | optEnc | csum =>
    obtain ⟨-, rfl⟩ := heffect
    simp [commandCodes]
  | optDec =>
    obtain ⟨-, ⟨c, rfl, rfl | rfl⟩ | ⟨l, -, rfl⟩⟩ := heffect <;> simp [commandCodes, Cause.code]
  | segEnc =>
    obtain ⟨c, rfl, rfl | rfl | rfl⟩ | ⟨-, -, -, -, -, -, rfl⟩ := heffect <;> simp [commandCodes, Cause.code]
  | segDec =>
    obtain ⟨-, ⟨c, rfl, hc⟩ | ⟨p, -, -, rfl⟩⟩ := heffect
    · obtain rfl | rfl | rfl | rfl | rfl | rfl := segParse_error hc <;> simp [commandCodes, Cause.code]
    · simp [commandCodes]

theorem commandCodes_subset (i : Instr) : commandCodes i ⊆ statusCodes := by
  cases i <;> simp [commandCodes, statusCodes]

theorem Cause.code_mem_statusCodes (c : Cause) : c.code ∈ statusCodes := by
  cases c <;> decide

/-- Settles O19: a write ends with a refusal, a command or a store; a read is `State.answer`. -/
theorem statusAfterEveryRequest : Obligations.StatusAfterEveryRequest := by
  refine fun s t => ⟨fun off v h => ?_, fun id addr b h => ?_, fun off h => ?_, fun id addr h => ?_⟩
  · obtain ⟨c, -, rfl⟩ | ⟨i, -, -, -, -, hexec⟩ | ⟨r, top, c, -, -, -, -, rfl⟩ := serve_next h
    · exact c.code_mem_statusCodes
    · exact commandCodes_subset i (codesOfEachCommand i s t hexec)
    · exact Cause.code_mem_statusCodes .success
  · obtain ⟨c, -, rfl⟩ | ⟨sp, -, -, -, -, -, rfl⟩ := serve_next h
    · exact c.code_mem_statusCodes
    · exact Cause.code_mem_statusCodes .success
  · obtain ⟨v, rfl⟩ := serve_next h
    rfl
  · obtain ⟨b, rfl⟩ := serve_next h
    rfl

end Sys2Proof.Machine
end

section
/-! PROOFS. The order in which requests are served, and what no request changes (spec/20_memory.md R52,
spec/60_exceptions.md R177, spec/70_reset_and_hazards.md R190, R203). -/

namespace Sys2Proof.Machine

/-! ### What no request changes -/

theorem State.memWrite_params_inputs (s : State) (sp : Space) (a : Nat) (B : List Byte) :
    (s.memWrite sp a B).params = s.params ∧ (s.memWrite sp a B).inputs = s.inputs := by
  cases sp <;> exact ⟨rfl, rfl⟩

theorem State.storeReg_params_inputs (s : State) (r : Register) (n : Nat) :
    (s.storeReg r n).params = s.params ∧ (s.storeReg r n).inputs = s.inputs := by
  cases r <;> exact ⟨rfl, rfl⟩

theorem exec_params_inputs {i : Instr} {s t : State} (h : exec i s = .next t) :
    t.params = s.params ∧ t.inputs = s.inputs := by
  obtain ⟨-, -, -, -, -, -, -, -, -, -, -, -, -, -, -, hparams, hinputs, -⟩ := writersOfEachRegister i s t h
  exact ⟨hparams, hinputs⟩

/-- The parameters and the inputs still waiting are out of a request's reach (log 1, log 2). -/
theorem serve_params_inputs {r : Request} {s t : State} (h : serve r s = .next t) :
    t.params = s.params ∧ t.inputs = s.inputs := by
  have hserved := serve_next h
  cases r with
  | wr off v =>
    obtain ⟨c, -, rfl⟩ | ⟨i, -, -, -, -, hexec⟩ | ⟨r, top, c, -, -, -, -, rfl⟩ := hserved
    · exact ⟨rfl, rfl⟩
    · exact exec_params_inputs hexec
    · exact s.storeReg_params_inputs r _
  | rd off =>
    obtain ⟨v, rfl⟩ := hserved
    exact ⟨rfl, rfl⟩
  | wrb space addr b =>
    obtain ⟨c, -, rfl⟩ | ⟨sp, -, -, -, -, -, rfl⟩ := hserved
    · exact ⟨rfl, rfl⟩
    · exact s.memWrite_params_inputs sp _ _
  | rdb space addr =>
    obtain ⟨b, rfl⟩ := hserved
    exact ⟨rfl, rfl⟩

/-! ### One step -/

theorem step_of_nil {s : State} (h : s.inputs = []) : step s = .next s := by
  rw [step, takeInput, h]

theorem step_of_cons {s : State} {i : Input} {rest : List Input} (h : s.inputs = i :: rest) :
    step s = accept i { s with inputs := rest } := by
  rw [step, takeInput, h]

/-- Settles O7: a request leaves the inputs behind it, and so does a reset. -/
theorem requestsServedInOrder : Obligations.RequestsServedInOrder := by
  refine ⟨fun s => step_of_nil, fun s r rest hin => step_of_cons hin, fun s t h => ?_⟩
  obtain ⟨hin, rfl⟩ | ⟨r, rest, hin, hserve⟩ | ⟨rest, hin, rfl⟩ := step_next h
  · rw [hin]
    rfl
  · rw [(serve_params_inputs hserve).2, hin]
    rfl
  · rw [hin]
    rfl

/-- Settles O24: neither a request nor a reset touches the parameters. -/
theorem parametersAreConstant : Obligations.ParametersAreConstant := by
  intro s t h
  obtain ⟨-, rfl⟩ | ⟨r, rest, -, hserve⟩ | ⟨rest, -, rfl⟩ := step_next h
  · rfl
  · exact (serve_params_inputs hserve).1
  · rfl

/-- Settles O16: the reset event is `State.resetEvent` of the state without it. -/
theorem resetEvent : Obligations.ResetEvent := fun _ _ hin => step_of_cons hin

/-- The data of `WR CMD` that carries a command word (spec/30_encoding.md R73). -/
theorem ofNat_mod_eq_setWidth (w : Word) : BitVec.ofNat 64 (w.toNat % 2 ^ 32) = w.setWidth 64 := by
  rw [Nat.mod_eq_of_lt w.isLt, BitVec.ofNat_toNat]

/-- Settles O6: the value of `WR CMD` is decoded; through `withFetchWord` it is the command's own word. -/
theorem stepRunsDecodedCommand : Obligations.StepRunsDecodedCommand := by
  refine ⟨fun s v rest i hin h0 h1 hi => ?_, fun s i hwf => ?_⟩
  · exact (step_of_cons hin).trans (writeCmd_of_decode_ok h0 h1 hi _)
  · have hstep : step (s.withFetchWord 32 (encode i).toNat) = accept (commandRequest 32 (encode i).toNat) s :=
      step_of_cons rfl
    have hword : commandRequest 32 (encode i).toNat = .request (.wr 0x000 ((encode i).setWidth 64)) := by
      rw [commandRequest, ofNat_mod_eq_setWidth]
      rfl
    rw [hstep, hword]
    exact serve_wr_cmd_of_decode_ok (decodeEncodeRoundTrip i hwf) s

end Sys2Proof.Machine
end

section
/-! PROOFS. The textual form of the flags (spec/30_encoding.md R72). -/

namespace Sys2Proof.Machine

/-- Settles O32: the six values are computed. -/
theorem flagStrings : Obligations.FlagStrings := by
  unfold Obligations.FlagStrings
  decide

end Sys2Proof.Machine
end

section
/-! PROOFS. The pseudo-request `opt.words` as the run of its requests (spec/30_encoding.md R73, spec/43_options.md R110,
R112). -/

namespace Sys2Proof.Machine

/-! ### Runs (spec/70_reset_and_hazards.md R205) -/

theorem runRequests_cons {r : Request} {s t : State} (h : serve r s = .next t) (l : List Request) :
    runRequests s (r :: l) = runRequests t l := by
  rw [runRequests, h]

theorem runRequests_append {l : List Request} {s t : State} (h : runRequests s l = .next t) (m : List Request) :
    runRequests s (l ++ m) = runRequests t m := by
  induction l generalizing s with
  | nil =>
    cases h
    rfl
  | cons r l ih =>
    rw [List.cons_append, runRequests]
    rw [runRequests] at h
    cases hr : serve r s with
    | next u =>
      rw [hr] at h
      exact ih h
    | fault f =>
      rw [hr] at h
      cases h
    | refused f =>
      rw [hr] at h
      cases h

/-! ### The lines of R73 -/

theorem wdata_toNat (w : Word) : wdata w.toNat = w.setWidth 64 := by
  rw [wdata, BitVec.ofInt_natCast, BitVec.ofNat_toNat]

theorem wdata_toInt {n : Nat} (h : n ≤ 4294967295) : (wdata n).toInt = n := by
  rw [wdata, BitVec.toInt_ofInt, Int.bmod_eq_of_le (by omega) (by omega)]

/-- `wr REG, n` of a value in range. -/
theorem serve_wrReg {r : Register} {top n : Nat} {c : Cause} (hr : r.access = .checked top c) (hn : n ≤ top)
    (htop : top ≤ 4294967295) (s : State) : serve (wrReg r n) s = .next ((s.storeReg r n).ended 0x00#8) := by
  have hv : (wdata n).toInt = n := wdata_toInt (hn.trans htop)
  rw [wrReg, serve_wr_checked r hr fun _ => rfl, hv, if_neg (by omega), Int.toNat_natCast]

/-- `cmd MNEMONIC imm` runs the command. -/
theorem serve_cmdOf {i : Instr} (hwf : i.wf = true) (s : State) : serve (cmdOf i) s = exec i s := by
  rw [cmdOf, wrReg, wdata_toNat]
  exact serve_wr_cmd_of_decode_ok (decodeEncodeRoundTrip i hwf) s

/-! ### The words of the window -/

/-- The writes of `opt.words` from word j on: OWVAL receives the words' bytes from 4j on, and the rest of what OPT.PUSH
reads stays. -/
theorem exists_runRequests_owWords {vs : List Word} {j : Nat} (hj : j + vs.length ≤ 10) (s : State) :
    ∃ t, runRequests s (owWords j vs) = .next t ∧ t.owKind = s.owKind ∧ t.owVlen = s.owVlen ∧ t.opts = s.opts ∧
      ∀ a, Memory.lookup t.owval a =
        if 4 * j ≤ a ∧ a < 4 * j + 4 * vs.length then (vs.flatMap be32)[a - 4 * j]? else Memory.lookup s.owval a := by
  induction vs generalizing j s with
  | nil => exact ⟨s, rfl, rfl, rfl, rfl, fun a => (if_neg (by simp)).symm⟩
  | cons v rest ih =>
    rw [List.length_cons] at hj
    have hval : (Fin.ofNat 10 j).val = j := Nat.mod_eq_of_lt (by omega)
    have hwrite := serve_wrReg (r := .owW (Fin.ofNat 10 j)) rfl (Nat.le_of_lt_succ v.isLt) le_rfl s
    have hword := s.lookup_owval_storeReg_owW (Fin.ofNat 10 j) v.toNat
    rw [hval, BitVec.ofNat_toNat, BitVec.setWidth_eq] at hword
    obtain ⟨t, hrun, hkind, hvlen, hopts, hlookup⟩ :=
      ih (j := j + 1) (by omega) ((s.storeReg (.owW (Fin.ofNat 10 j)) v.toNat).ended 0x00#8)
    refine ⟨t, (runRequests_cons hwrite _).trans hrun, hkind, hvlen, hopts, fun a => ?_⟩
    rw [hlookup, List.flatMap_cons, List.length_cons]
    by_cases hhigh : 4 * (j + 1) ≤ a
    · by_cases hend : a < 4 * j + 4 * (rest.length + 1)
      · rw [if_pos (by omega), if_pos (by omega), List.getElem?_append_right (by rw [be32_length]; omega), be32_length,
          show a - 4 * (j + 1) = a - 4 * j - 4 by omega]
      · rw [if_neg (by omega), if_neg (by omega)]
        exact (hword a).trans (if_neg (by omega))
    · rw [if_neg (by omega)]
      by_cases hlow : 4 * j ≤ a
      · rw [if_pos (by omega), List.getElem?_append_left (by rw [be32_length]; omega)]
        exact (hword a).trans (if_pos (by omega))
      · rw [if_neg (by omega)]
        exact (hword a).trans (if_neg (by omega))

/-- Settles O44: the window holds the kind, the length and the words when OPT.PUSH reads it. -/
theorem optionWordsPushSizedRecord : Obligations.OptionWordsPushSizedRecord := by
  intro s k vs hk hvs hopts hroom
  have hkind := serve_wrReg (r := .owKind) rfl (Nat.le_of_lt_succ k.isLt) (by decide) s
  have hvlen := serve_wrReg (r := .owVlen) (n := 4 * vs.length) rfl (by omega) (by decide)
    ((s.storeReg .owKind k.toNat).ended 0x00#8)
  obtain ⟨t, hrun, htkind, htvlen, htopts, hlookup⟩ := exists_runRequests_owWords (j := 0) (vs := vs) (by omega)
    ((((s.storeReg .owKind k.toNat).ended 0x00#8).storeReg .owVlen (4 * vs.length)).ended 0x00#8)
  have hn : t.owVlen.toNat = 4 * vs.length := by
    rw [htvlen]
    exact (BitVec.toNat_ofNat _ _).trans (Nat.mod_eq_of_lt (by omega))
  have hk' : t.owKind = k := htkind.trans ((BitVec.ofNat_toNat _ _).trans (BitVec.setWidth_eq k))
  have hvalue : t.memRead .owval 0 (4 * vs.length) = vs.flatMap be32 := by
    rw [← flatMap_be32_length vs]
    refine State.memRead_eq_of_written (sp := .owval) fun a ha => ?_
    rw [flatMap_be32_length] at ha
    exact (hlookup a).trans (if_pos (by omega))
  have hrecord : t.windowRecord = ⟨k, vs.flatMap be32⟩ := by
    rw [State.windowRecord, hk', hn, if_pos hk, hvalue]
  have hlen : t.windowEncLen = 2 + 4 * vs.length := by
    rw [State.windowEncLen, hk', hn, if_neg hk.not_gt]
  have hpush : exec .optPush t =
      .next (({ t with opts := s.opts ++ [⟨k, vs.flatMap be32⟩] } : State).ended 0x00#8) := by
    rw [exec_optPush_of_wellFormed (fun hlt => absurd (hk' ▸ hlt) hk.not_gt) (by omega), hlen, hrecord, htopts]
    exact if_neg hroom.not_gt
  have hall : runRequests s (optWords k vs) =
      .next (({ t with opts := s.opts ++ [⟨k, vs.flatMap be32⟩] } : State).ended 0x00#8) := calc
    _ = runRequests _ (owWords 0 vs ++ [cmdOf .optPush]) := (runRequests_cons hkind _).trans (runRequests_cons hvlen _)
    _ = runRequests t [cmdOf .optPush] := runRequests_append hrun _
    _ = _ := runRequests_cons ((serve_cmdOf rfl t).trans hpush) []
  exact ⟨_, hall, rfl, rfl⟩

end Sys2Proof.Machine
end

section
/-! PROOFS. The statements about SEG.DEC's refusals and descriptor, and about what SEG.ENC and SEG.DEC depend on
(spec/45_segment.md R150, R157). -/

namespace Sys2Proof.Machine

/-! ### The tests of the parser in terms of byte 12 (R150, spec/30_encoding.md R66) -/

theorem dataOffsetOf_u16be (B : List Byte) (i : Nat) :
    dataOffsetOf (u16be B i) = ((B.getD i 0#8).extractLsb' 4 4).toNat := by
  rw [← toNat_dataOffset_byte, u16be, BitVec.extractLsb'_append_eq_left]

theorem reservedOf_u16be (B : List Byte) (i : Nat) : reservedOf (u16be B i) = (B.getD i 0#8).extractLsb' 1 3 := by
  rw [← reserved_byte, u16be, BitVec.extractLsb'_append_eq_left]

/-- The parse of a segment that holds a header, where d is its data offset. -/
theorem segParse_of_long {B : List Byte} {d : Nat} (hlen : 20 ≤ B.length)
    (hd : ((B.getD 12 0#8).extractLsb' 4 4).toNat = d) :
    segParse B =
      if (B.getD 12 0#8).extractLsb' 1 3 ≠ 0#3 then .error .headerReserved
      else if d < 5 then .error .dataOffsetLow
      else if B.length < 4 * d then .error .dataOffsetHigh
      else (optsDecode ((B.drop 20).take (4 * d - 20))).map ((wireHeaderOf B).parsed · (B.drop (4 * d))) := by
  have hparse := segParse_bytes_append (wireHeaderOf B) (B.drop 20)
  have hoffset : (wireHeaderOf B).dataOffset = d := (dataOffsetOf_u16be B 12).trans hd
  have hres : reservedOf (wireHeaderOf B).offsetFlags = _ := reservedOf_u16be B 12
  rw [wireHeaderOf_bytes_append_drop hlen, hoffset, hres] at hparse
  rw [hparse]
  by_cases hlow : d < 5
  · rw [if_pos hlow, if_pos hlow]
  · have hfits : (B.drop 20).length < 4 * d - 20 ↔ B.length < 4 * d := by
      rw [List.length_drop]
      omega
    simp only [hfits, List.drop_drop, show 20 + (4 * d - 20) = 4 * d by omega]

/-! ### Reads of written bytes -/

/-- Two states that hold the same written bytes read the same; a byte never written could differ (log 3). -/
theorem State.memRead_congr {s t : State} {sp : Space} {n : Nat} (hwritten : Written (s.buf sp) n)
    (h : ∀ a, a < n → Memory.lookup (s.buf sp) a = Memory.lookup (t.buf sp) a) :
    s.memRead sp 0 n = t.memRead sp 0 n := by
  have hread : t.memRead sp 0 (s.memRead sp 0 n).length = s.memRead sp 0 n := by
    refine State.memRead_eq_of_written fun a ha => ?_
    rw [State.memRead_length] at ha
    rw [← h a ha, State.lookup_eq_memRead_getElem? hwritten ha]
  rw [State.memRead_length] at hread
  exact hread.symm

/-- The payload register and buffer as SEG.ENC reads them. -/
theorem State.memRead_paybuf_eq_of_samePayload {s t : State} (h : SamePayload s t) :
    s.memRead .paybuf 0 s.paylen.toNat = t.memRead .paybuf 0 t.paylen.toNat := by
  obtain ⟨hlen, hbytes⟩ := h
  rw [← hlen]
  refine State.memRead_congr (sp := .paybuf) (fun a ha => ?_) fun a ha => ?_
  all_goals obtain ⟨b, hs, ht⟩ := hbytes a ha
  · exact Option.isSome_of_mem hs
  · exact hs.trans ht.symm

/-! ### What SEG.DEC has loaded -/

theorem State.deserialized_paylen (s : State) {p : Parsed} (h : p.payload.length ≤ 65527) :
    (s.deserialized p).paylen.toNat = p.payload.length :=
  (BitVec.toNat_ofNat _ _).trans (Nat.mod_eq_of_lt (by omega))

/-- Loading one parse into any two states gives equal descriptors: every payload byte is written (log 12). -/
theorem State.sameDescriptor_deserialized (s t : State) {p : Parsed} (h : p.payload.length ≤ 65527) :
    SameDescriptor (s.deserialized p) (t.deserialized p) := by
  refine ⟨⟨rfl, rfl, rfl, rfl, rfl, rfl, rfl, rfl, rfl, fun a ha => ?_⟩, .inl ⟨rfl, rfl⟩⟩
  rw [s.deserialized_paylen h] at ha
  have hbyte (u : State) : Memory.lookup (u.deserialized p).paybuf a = some p.payload[a] :=
    ((u.lookup_deserialized p).1 a ha).trans (List.getElem?_eq_getElem ha)
  exact ⟨p.payload[a], hbyte s, hbyte t⟩

/-! ### The statements -/

/-- Settles O52: each clause is one test of `segParse_of_long`; a data offset of 5 or more that fits the input makes the
input long enough. -/
theorem parseRefusals : Obligations.ParseRefusals := by
  intro s hs
  refine ⟨_, s.shows_memRead .segbuf _, ?_⟩
  have hexec {c : Cause} (hc : segParse (s.memRead .segbuf 0 s.seglen.toNat) = .error c) :=
    exec_segDec_of_error hs hc
  generalize s.memRead .segbuf 0 s.seglen.toNat = B at hexec
  intro d r field
  have hfield {c : Cause} (hres : r = 0#3) (hlow : 5 ≤ d) (hfits : 4 * d ≤ B.length)
      (hc : optsDecode field = .error c) : segParse B = .error c := by
    rw [segParse_of_long (by omega) rfl, if_neg (not_not.mpr hres), if_neg hlow.not_gt, if_neg hfits.not_gt]
    exact congrArg (Except.map _) hc
  refine ⟨fun hshort => hexec (segParse_of_short hshort), fun hlen hres => hexec (c := .headerReserved) ?_,
    fun hlen hres hlow => hexec (c := .dataOffsetLow) ?_, fun hlen hres hlow hhigh => hexec (c := .dataOffsetHigh) ?_,
    fun hres hlow hfits hc => hexec (hfield hres hlow hfits hc),
    fun hres hlow hfits hc => hexec (hfield hres hlow hfits hc)⟩
  · rw [segParse_of_long hlen rfl, if_pos hres]
  · rw [segParse_of_long hlen rfl, if_neg (not_not.mpr hres), if_pos hlow]
  · rw [segParse_of_long hlen rfl, if_neg (not_not.mpr hres), if_neg hlow.not_gt, if_pos hhigh]

/-- Settles O53: the parse is the header's fields, the decoded options and the rest, which SEG.DEC loads. -/
theorem parseWritesDescriptor : Obligations.ParseWritesDescriptor := by
  intro s hs
  refine ⟨_, s.shows_memRead .segbuf _, ?_⟩
  have hexec {p : Parsed} (hp : segParse (s.memRead .segbuf 0 s.seglen.toNat) = .ok p) := exec_segDec_of_ok hs hp
  have hB : (s.memRead .segbuf 0 s.seglen.toNat).length ≤ 65547 := (s.memRead_length _ _ _).trans_le hs
  generalize s.memRead .segbuf 0 s.seglen.toNat = B at hexec hB
  intro at' d l hlen hres hlow hfits hl
  have hparse : segParse B = .ok ((wireHeaderOf B).parsed l (B.drop (4 * d))) := by
    rw [segParse_of_long hlen rfl, if_neg (not_not.mpr hres), if_neg hlow.not_gt, if_neg hfits.not_gt]
    exact congrArg (Except.map _) hl
  obtain ⟨hbelow, habove⟩ := s.lookup_deserialized ((wireHeaderOf B).parsed l (B.drop (4 * d)))
  have hpay : ((wireHeaderOf B).parsed l (B.drop (4 * d))).payload.length = B.length - 4 * d := List.length_drop
  rw [hpay] at hbelow habove
  have hpaylen := s.deserialized_paylen (p := (wireHeaderOf B).parsed l (B.drop (4 * d))) (by omega)
  have hflags : (at' 12 ++ at' 13).setWidth 9 = (at' 12 ++ at' 13).extractLsb' 0 9 :=
    BitVec.setWidth_eq_extractLsb' (by decide)
  exact ⟨_, hexec hparse, rfl, rfl, rfl, rfl, hflags, rfl, rfl, rfl, hpaylen.trans hpay,
    fun a ha => (hbelow a ha).trans List.getElem?_drop, habove, rfl⟩

/-- Settles O58: the three tests and the segment are functions of the named inputs. -/
theorem serializeIsPure : Obligations.SerializeIsPure := by
  intro s1 s2 t1 hok1 hok2 hparams hsport hdport hseq hack hflags hwin hurg hopts hpay hatt hfam hsrc hdst hproto h
  have hbytes (pay : List Byte) : s1.segmentBytes pay = s2.segmentBytes pay := by
    simp only [State.segmentBytes, State.header, State.segmentChecksum, State.pseudoHeader, State.segmentLength,
      State.offsetFlags, State.dataOffset, State.optionBytes, hparams, hsport, hdport, hseq, hack, hflags, hwin, hurg,
      hopts, hpay.1, hsrc, hdst, hproto]
  have hsegment : s1.segment = s2.segment := by
    rw [State.segment, State.memRead_paybuf_eq_of_samePayload hpay, hbytes, State.segment]
  have hlen : s1.serializedLength = s2.serializedLength := by
    rw [← State.segment_length, hsegment, State.segment_length]
  rw [hok1.exec_segEnc_eq, hatt, hfam, hparams, hlen] at h
  rw [hok2.exec_segEnc_eq]
  split_ifs at h ⊢ with h1 h2 h3
  all_goals cases h
  · exact ⟨_, rfl, rfl, fun h0 => by simp at h0⟩
  · exact ⟨_, rfl, rfl, fun h0 => by simp at h0⟩
  · exact ⟨_, rfl, rfl, fun h0 => by simp at h0⟩
  · have hmax : s1.segment.length ≤ 65547 := by
      have hok := hok2.params.2
      rw [State.segment_length, hlen]
      omega
    refine ⟨_, rfl, rfl, fun _ => ⟨congrArg (fun B => BitVec.ofNat 17 (List.length B)) hsegment.symm, fun a ha => ?_⟩⟩
    rw [State.serialized_seglen hmax] at ha
    rw [s1.lookup_serialized.1 a ha, s2.lookup_serialized.1 a (hsegment ▸ ha), hsegment]

/-- Settles O59: both states read one segment, so they parse it alike; what they load is written. -/
theorem parseIsPure : Obligations.ParseIsPure := by
  intro s1 s2 t1 hseglen hwritten hbytes h
  have hread := State.memRead_congr (sp := .segbuf) hwritten hbytes
  rw [hseglen] at hread
  obtain ⟨hcap, ⟨c, rfl, hc⟩ | ⟨p, hp, hpay, rfl⟩⟩ := exec_next h
  all_goals rw [hseglen] at hcap
  · rw [hseglen, hread] at hc
    refine ⟨_, exec_segDec_of_error hcap hc, rfl, fun h0 => ?_⟩
    simpa [Cause.eq_success_of_code_eq_zero h0] using segParse_error hc
  · rw [hseglen, hread] at hp
    exact ⟨_, exec_segDec_of_ok hcap hp, rfl, fun _ => s1.sameDescriptor_deserialized s2 hpay⟩

end Sys2Proof.Machine
end
